-- ==== Sys2Proof/Word.lean ====
section
/-! DEFINITION. The word types of the block: every value is an unsigned integer of a stated width (00_scope.md R8).
Bit 0 is the least significant bit (R7), which is BitVec's own numbering. -/
namespace Sys2Proof

/-- A byte of a template, checksum or frame (00_scope.md R8). -/
abbrev Byte := BitVec 8

/-- A 16-bit value, bound or checksum accumulator: VALUE_WIDTH, BOUND_WIDTH and ACC_WIDTH of 00_scope.md R6. -/
abbrev Half := BitVec 16

/-- A packed request word, REQ_WIDTH bits (00_scope.md R6, 30_encoding.md R40). -/
abbrev ReqWord := BitVec 128

/-- A packed response word, RSP_WIDTH bits (00_scope.md R6, 30_encoding.md R44). -/
abbrev RspWord := BitVec 128

end Sys2Proof
end

