-- ==== Sys2Proof/Config.lean ====
section
/-! DEFINITION. The implementation parameters of 00_scope.md R6. None of them is a free parameter: each has the value the
rule fixes (log 18). The widths of R6 are the types of Sys2Proof/Word.lean. The spec leaves no value free, so there is no
opaque constant here. -/
namespace Sys2Proof.Config

/-- TEMPLATE_LEN: bytes in a Command Template. -/
abbrev templateLen : Nat := 9

/-- CHECKSUM_LEN: bytes in a Checksum. -/
abbrev checksumLen : Nat := 2

/-- FRAME_LEN: bytes in a Wire Frame. -/
abbrev frameLen : Nat := 11

/-- VALUE_HI_INDEX: the template byte that takes the value's high byte. -/
abbrev valueHiIndex : Nat := 7

/-- VALUE_LO_INDEX: the template byte that takes the value's low byte. -/
abbrev valueLoIndex : Nat := 8

/-- CKS_LO_INDEX: the frame byte that takes the checksum's low byte. -/
abbrev cksLoIndex : Nat := 9

/-- CKS_HI_INDEX: the frame byte that takes the checksum's high byte. -/
abbrev cksHiIndex : Nat := 10

/-- CRC_INIT: the accumulator's initial value. -/
abbrev crcInit : Half := 0xFFFF#16

/-- CRC_POLY: the reflected polynomial, XORed in after a shift. -/
abbrev crcPoly : Half := 0xA001#16

/-- BITS_PER_BYTE: bit iterations per input byte. -/
abbrev bitsPerByte : Nat := 8

/-- CRC_ITERATIONS: bit iterations per checksum. -/
abbrev crcIterations : Nat := 72

/-- DEFAULT_MIN: the min used when only a maximum is given. -/
abbrev defaultMin : Half := 0#16

end Sys2Proof.Config
end

