-- ==== Sys2Proof/Machine/Flags.lean ====
section
/-! DEFINITION. The only condition code, the response status (10_state.md R15, 30_encoding.md R45), and the one test that
computes it (43_range_guard.md R69). -/
namespace Sys2Proof.Machine

/-- The response statuses of 30_encoding.md R45. -/
inductive Status where
  | ok
  | invalidRange
  deriving DecidableEq, Repr

/-- The status bit: 0 is OK, 1 is INVALID_RANGE (30_encoding.md R45). -/
def Status.code : Status → BitVec 1
  | .ok => 0#1
  | .invalidRange => 1#1

/-- The status RANGE writes: INVALID_RANGE exactly when `v > max`, compared unsigned. The lower bound takes no part
(43_range_guard.md R69, R70). -/
def rangeStatus (v max : Half) : Status := if max < v then .invalidRange else .ok

end Sys2Proof.Machine
end

