-- ==== Sys2Proof/Machine/Operands.lean ====
section
/-! DEFINITION. How a 16-bit value is split into bytes inside the operations, and how the value is laid into a template
(30_encoding.md R48, 20_memory.md R27, R28). Operands are taken from the request without extension, scaling or shift
(R48); that is in Sys2Proof/Decode.lean. -/
namespace Sys2Proof.Machine

/-- `(v >> 8) & 0xFF` (30_encoding.md R48). -/
def hiByte (v : Half) : Byte := ((v >>> 8) &&& 0xFF#16).setWidth 8

/-- `v & 0xFF` (30_encoding.md R48). -/
def loByte (v : Half) : Byte := (v &&& 0xFF#16).setWidth 8

/-- A checksum as two bytes, low byte first (10_state.md R22, 20_memory.md R28). -/
def checksumBytes (c : Half) : List Byte := [loByte c, hiByte c]

/-- The template with bytes 7 and 8 overwritten by the big-endian value (20_memory.md R27, 40_value_writer.md R56). -/
def injectValue (tmpl : List Byte) (v : Half) : List Byte :=
  (tmpl.set Config.valueHiIndex (hiByte v)).set Config.valueLoIndex (loByte v)

end Sys2Proof.Machine
end

