-- ==== Sys2Proof/Syntax.lean ====
section
/-! DEFINITION. The operations of the block, one constructor per row of spec/opcode_table.json (30_encoding.md R41, R54).
A constructor holds the fields its operation uses (30_encoding.md R39, R49); an unused field of the request word has no
place in it (R42). A template is a list of bytes, byte 0 first (00_scope.md R7); its length is checked in WellFormed
(20_memory.md R33, log 9). -/
namespace Sys2Proof

/-- An operation with its operands, as the decoder of 30_encoding.md R49 reads it. -/
inductive Instr where
  /-- WRITE_VALUE: inject `value` into template bytes 7 and 8 (40_value_writer.md R56). -/
  | writeValue (tmpl : List Byte) (value : Half)
  /-- CHECKSUM: the modified CRC-16 of the template (41_checksum.md R59). -/
  | checksum (tmpl : List Byte)
  /-- PACKETIZE: the template followed by its checksum (42_packetizer.md R66). -/
  | packetize (tmpl : List Byte)
  /-- RANGE: fail when `value > max` (43_range_guard.md R69). -/
  | range (value min max : Half)
  deriving DecidableEq, Repr

end Sys2Proof
end

