-- ==== Sys2Proof/WellFormed.lean ====
section
/-! DEFINITION. Which terms of Instr spell a request of this hardware: a template has exactly 9 bytes (10_state.md R20,
20_memory.md R33). The well-formedness of a command sequence is in Sys2Proof/Machine/Sequence.lean (44_sequences.md R74). -/
namespace Sys2Proof

/-- A list of bytes is a Command Template when it has exactly 9 bytes (10_state.md R20). -/
abbrev IsTemplate (tmpl : List Byte) : Prop := tmpl.length = Config.templateLen

/-- The instruction spells a request: its template, where it has one, is a Command Template. -/
def Instr.wellFormed : Instr → Bool
  | .writeValue tmpl _ => decide (IsTemplate tmpl)
  | .checksum tmpl => decide (IsTemplate tmpl)
  | .packetize tmpl => decide (IsTemplate tmpl)
  | .range _ _ _ => true

end Sys2Proof
end

