-- ==== Sys2Proof/Decode.lean ====
section
/-! DEFINITION. The packed request word and its decoder (30_encoding.md R40, R41, R43, R49), and the encoder written from
the same layout (R40, R51). The byte-field helpers serve the response word too (30_encoding.md R44), whose data bytes stand
at the same places as the template bytes. -/
namespace Sys2Proof

/-- Byte `i` of the byte field that starts at bit 8: bits `8*i+15 : 8*i+8` (30_encoding.md R40 for `tmpl[i]`, R44 for
`data[i]`). -/
def byteField (w : BitVec 128) (i : Nat) : Byte := w.extractLsb' (8 * i + 8) 8

/-- The first `n` bytes of that field, byte 0 first. -/
def byteFields (n : Nat) (w : BitVec 128) : List Byte := (List.range n).map (byteField w)

/-- A 16-bit field whose lowest bit is bit `lo` of the word. -/
def halfField (w : BitVec 128) (lo : Nat) : Half := w.extractLsb' lo 16

/-- Bytes laid side by side from bit 0 upward, byte 0 lowest. -/
def bytesWord : List Byte → BitVec 128
  | [] => 0#128
  | b :: bs => b.setWidth 128 ||| (bytesWord bs <<< 8)

/-- The operation code `w[2:0]` (30_encoding.md R40). -/
def opField (w : ReqWord) : BitVec 3 := w.extractLsb' 0 3

/-- The reserved bits `w[7:3]` (30_encoding.md R40). -/
def reservedField (w : ReqWord) : BitVec 5 := w.extractLsb' 3 5

/-- The template `w[79:8]` as nine bytes (30_encoding.md R40, R48). -/
def tmplField (w : ReqWord) : List Byte := byteFields Config.templateLen w

/-- The value `w[95:80]` (30_encoding.md R40). -/
def valueField (w : ReqWord) : Half := halfField w 80

/-- The guard's lower bound `w[111:96]` (30_encoding.md R40). -/
def minField (w : ReqWord) : Half := halfField w 96

/-- The guard's upper bound `w[127:112]` (30_encoding.md R40). -/
def maxField (w : ReqWord) : Half := halfField w 112

/-- Why a request word has no meaning (30_encoding.md R43). -/
inductive DecodeError where
  /-- `w[7:3]` is not `00000`. -/
  | reservedBits
  /-- `op` is one of 4 to 7. -/
  | reservedOp
  deriving DecidableEq, Repr

/-- The decoder of 30_encoding.md R49: total on every 128-bit word, the reserved bits tested first (log 8). -/
def decode (w : ReqWord) : Except DecodeError Instr :=
  if reservedField w ≠ 0#5 then .error .reservedBits
  else match (opField w).toNat with
    | 0 => .ok (.writeValue (tmplField w) (valueField w))
    | 1 => .ok (.checksum (tmplField w))
    | 2 => .ok (.packetize (tmplField w))
    | 3 => .ok (.range (valueField w) (minField w) (maxField w))
    | _ => .error .reservedOp

/-- The request word with the given fields and the reserved bits 0 (30_encoding.md R40). -/
def packRequest (op : BitVec 3) (tmpl : List Byte) (value min max : Half) : ReqWord :=
  op.setWidth 128 ||| (bytesWord tmpl <<< 8) ||| (value.setWidth 128 <<< 80) ||| (min.setWidth 128 <<< 96)
    ||| (max.setWidth 128 <<< 112)

/-- The operation code of an instruction (30_encoding.md R41). -/
def opcode : Instr → BitVec 3
  | .writeValue _ _ => 0#3
  | .checksum _ => 1#3
  | .packetize _ => 2#3
  | .range _ _ _ => 3#3

/-- The canonical request word of an instruction: its operands in their fields, every unused field 0 (30_encoding.md R42,
R51). -/
def encode : Instr → ReqWord
  | .writeValue tmpl value => packRequest 0#3 tmpl value 0#16 0#16
  | .checksum tmpl => packRequest 1#3 tmpl 0#16 0#16 0#16
  | .packetize tmpl => packRequest 2#3 tmpl 0#16 0#16 0#16
  | .range value min max => packRequest 3#3 [] value min max

/-- The request word whose low `nbits` bits are those of `w`, and whose other bits are 0. -/
def tableWord (nbits w : Nat) : ReqWord := BitVec.ofNat 128 (w % 2 ^ nbits)

/-- What the decoder reads from the request word with the given low bits; none where it refuses. -/
def decodeTableWord (nbits w : Nat) : Option Instr :=
  match decode (tableWord nbits w) with
  | .ok i => some i
  | .error _ => none

end Sys2Proof
end

