-- ==== Sys2Proof/Machine/Sequence.lean ====
section
/-! DEFINITION. The command sequence a host runs (44_sequences.md R74): its names, values and statements, with the
pseudo-instructions already expanded, the lookup of operands in the environment (R75), and the conditions under which a
sequence is well formed. -/
namespace Sys2Proof.Machine

/-- A name of a sequence: one its author wrote, or the fresh `%t` the assembler chooses for the FRAME at source line `n`
(30_encoding.md R51, R53; log 16). -/
inductive Ident where
  | user (s : String)
  | temp (n : Nat)
  deriving DecidableEq, Repr

/-- What a name may be bound to (44_sequences.md R74). -/
inductive Kind where
  | num
  | template
  | checksum
  | frame
  deriving DecidableEq, Repr

/-- A bound value: a 16-bit input, a 9-byte template, a 2-byte checksum or an 11-byte frame (44_sequences.md R74). -/
inductive Val where
  | num (v : Half)
  | template (bs : List Byte)
  | checksum (bs : List Byte)
  | frame (bs : List Byte)
  deriving DecidableEq, Repr

/-- The kind of a value. -/
def Val.kind : Val → Kind
  | .num _ => .num
  | .template _ => .template
  | .checksum _ => .checksum
  | .frame _ => .frame

/-- The environment of a run: names to values, the newest binding first (44_sequences.md R74, log 15). -/
abbrev Env := List (Ident × Val)

/-- `env[x]` of 44_sequences.md R75. -/
def lookup {α : Type} (env : List (Ident × α)) (x : Ident) : Option α :=
  match env with
  | [] => none
  | (y, v) :: rest => if y = x then some v else lookup rest x

/-- A 16-bit operand: a literal, or the name of a sequence input (30_encoding.md R51). -/
inductive NumOperand where
  | lit (v : Half)
  | name (x : Ident)
  deriving DecidableEq, Repr

/-- A template operand: a literal, or a bound name (30_encoding.md R51). -/
inductive TmplOperand where
  | lit (bs : List Byte)
  | name (x : Ident)
  deriving DecidableEq, Repr

/-- A statement of a sequence body (30_encoding.md R51). -/
inductive Stmt where
  | writeValue (dst : Ident) (tmpl : TmplOperand) (value : NumOperand)
  | checksum (dst : Ident) (tmpl : TmplOperand)
  | packetize (dst : Ident) (tmpl : TmplOperand)
  | range (value min max : NumOperand)
  | ret (x : Ident)
  deriving DecidableEq, Repr

/-- The result of a run (44_sequences.md R77): `Ok` with the returned value, or `Err(InvalidRange)` with the error's
`start` and `end`. -/
inductive Result where
  | ok (v : Val)
  | invalidRange (start stop : Half)
  deriving DecidableEq, Repr

/-- `env(e)` for a 16-bit operand (44_sequences.md R75): none when the name is unbound or not a number. -/
def NumOperand.eval (env : Env) : NumOperand → Option Half
  | .lit v => some v
  | .name x => match lookup env x with
    | some (.num v) => some v
    | _ => none

/-- `env(e)` for a template operand (44_sequences.md R75): none when the name is unbound or not a template, and when a list
of another length than 9 stands for the template (20_memory.md R33). -/
def TmplOperand.eval (env : Env) : TmplOperand → Option (List Byte)
  | .lit bs => if IsTemplate bs then some bs else none
  | .name x => match lookup env x with
    | some (.template bs) => if IsTemplate bs then some bs else none
    | _ => none

/-- The operation a statement issues under an environment (44_sequences.md R75); none for RETURN, which issues no request,
and where an operand has no value. -/
def Stmt.instr? (env : Env) : Stmt → Option Instr
  | .writeValue _ t v => match t.eval env, v.eval env with
    | some bs, some n => some (.writeValue bs n)
    | _, _ => none
  | .checksum _ t => (t.eval env).map .checksum
  | .packetize _ t => (t.eval env).map .packetize
  | .range v a b => match v.eval env, a.eval env, b.eval env with
    | some n, some lo, some hi => some (.range n lo hi)
    | _, _, _ => none
  | .ret _ => none

/-- The kinds of the names bound so far. -/
abbrev KindEnv := List (Ident × Kind)

/-- A 16-bit operand has the kind its position needs (44_sequences.md R74). -/
def NumOperand.checks (ctx : KindEnv) : NumOperand → Bool
  | .lit _ => true
  | .name x => lookup ctx x == some .num

/-- A template operand has the kind its position needs (44_sequences.md R74), and a literal has nine bytes (30_encoding.md
R51). -/
def TmplOperand.checks (ctx : KindEnv) : TmplOperand → Bool
  | .lit bs => decide (IsTemplate bs)
  | .name x => lookup ctx x == some .template

/-- A destination is fresh: no input and no earlier statement binds it (44_sequences.md R74). -/
def fresh (ctx : KindEnv) (x : Ident) : Bool := (lookup ctx x).isNone

/-- The conditions of 44_sequences.md R74 on a body, under the kinds of the names bound so far. -/
def bodyChecks (ctx : KindEnv) : List Stmt → Bool
  | [] => false
  | .writeValue d t v :: rest =>
    t.checks ctx && v.checks ctx && fresh ctx d && bodyChecks ((d, .template) :: ctx) rest
  | .checksum d t :: rest => t.checks ctx && fresh ctx d && bodyChecks ((d, .checksum) :: ctx) rest
  | .packetize d t :: rest => t.checks ctx && fresh ctx d && bodyChecks ((d, .frame) :: ctx) rest
  | .range v a b :: rest => v.checks ctx && a.checks ctx && b.checks ctx && bodyChecks ctx rest
  | .ret x :: rest => (lookup ctx x).isSome && rest.isEmpty

/-- A sequence with these input names and this body is well formed (44_sequences.md R74). The input names are distinct,
since the environment maps each name to one value (log 14). -/
def sequenceWellFormed (inputs : List Ident) (body : List Stmt) : Bool :=
  decide inputs.Nodup && bodyChecks (inputs.map fun x => (x, .num)) body

end Sys2Proof.Machine
end

