-- ==== Sys2Proof/Machine/State.lean ====
section
/-! DEFINITION. The state of the machine: the transaction between the block and its requesters, the command sequences the
hosts run, and what the outside does next. The block keeps nothing from one request to the next (10_state.md R18), so no
field is a register of the block. -/
namespace Sys2Proof.Machine

/-- Why a step faults: never. "No operation faults on its data: no value, template or bound makes any operation fault"
(60_exceptions.md R82), so no one raises a fault (log 24; safe: there is none). -/
inductive Fault where
  deriving DecidableEq, Repr

/-- Why a step is refused. -/
inductive Refusal where
  /-- Raised by `exec` for an instruction that has no meaning yet. Safe: the machine stops. -/
  | notModelled (mnemonic : String)
  /-- Raised when the block takes a request whose bits `w[7:3]` are not 0 (30_encoding.md R43). Safe: the spec gives such
  a request no step. -/
  | reservedBits
  /-- Raised when the block takes a request whose operation code is 4 to 7 (30_encoding.md R43). Safe: the spec gives such
  a request no step. -/
  | reservedOp
  /-- Raised by WRITE_VALUE, CHECKSUM and PACKETIZE on a list that is not 9 bytes long (20_memory.md R33). Safe: no request
  word spells it. -/
  | templateLength
  deriving DecidableEq, Repr

/-- Who issues a request: the host that runs sequence `n` of the state, or a requester outside any sequence
(60_exceptions.md R91, log 22). -/
inductive Requester where
  | run (n : Nat)
  | outside
  deriving DecidableEq, Repr

/-- A request the block has taken and not answered (30_encoding.md R50). -/
structure Outstanding where
  issuer : Requester
  word : ReqWord
  deriving DecidableEq, Repr

/-- A response the block has returned, and to whom (30_encoding.md R50). -/
structure Returned where
  issuer : Requester
  word : RspWord
  deriving DecidableEq, Repr

/-- Where a run stands in the loop of 44_sequences.md R75. -/
inductive Phase where
  /-- not begun: the check of R74 comes next -/
  | starting
  /-- statement `k` comes next -/
  | ready
  /-- the request of statement `k` is outstanding -/
  | waiting
  /-- the response to statement `k` has come back -/
  | received (r : RspWord)
  /-- the run has ended with a result (R77 cases 1 and 2) -/
  | finished (res : Result)
  /-- a reset took the block while a request of the run was outstanding (R77 case 3) -/
  | abandoned
  /-- the sequence is not well formed and never runs (R74) -/
  | refused
  deriving DecidableEq, Repr

/-- A command sequence with the inputs of this run and the host's state of it (44_sequences.md R74). -/
structure Run where
  inputs : List (Ident × Half)
  body : List Stmt
  env : Env
  k : Nat
  phase : Phase
  deriving DecidableEq, Repr

/-- What the outside does next (log 4). -/
inductive Move where
  /-- the block performs the outstanding request -/
  | block
  /-- the host of sequence `n` takes its next move -/
  | run (n : Nat)
  /-- a requester outside any sequence presents a request word -/
  | request (w : ReqWord)
  /-- a host sets out to run a sequence -/
  | load (inputs : List (Ident × Half)) (body : List Stmt)
  /-- the host of sequence `n` runs it again from `k = 0` (44_sequences.md R77, 70_reset_and_hazards.md R95) -/
  | restart (n : Nat)
  /-- reset, or a power cycle, takes the block (70_reset_and_hazards.md R95, 60_exceptions.md R93) -/
  | reset
  deriving DecidableEq, Repr

/-- The whole machine. -/
structure State where
  /-- the outstanding request: one at a time (30_encoding.md R50) -/
  request : Option Outstanding
  /-- the response last returned, shown until the next request is taken (30_encoding.md R44; log 5) -/
  response : Option Returned
  /-- the command sequences of the hosts (44_sequences.md R74, 60_exceptions.md R91) -/
  runs : List Run
  /-- the moves the outside has chosen; the model's own field (log 4) -/
  sched : List Move
  deriving DecidableEq, Repr

/-- After reset: no request outstanding and no response pending (70_reset_and_hazards.md R94); no sequence is loaded and the
outside has chosen nothing (log 10). -/
def State.reset : State where
  request := none
  response := none
  runs := []
  sched := []

end Sys2Proof.Machine
end

