-- ==== Sys2Proof/Machine/Ops.lean ====
section
/-! DEFINITION. The shared operations: the checksum computation, the response record and its packing, reporting the one
error (there is no trap entry and no trap return, 60_exceptions.md R86), returning a response, taking and placing a request,
and reset. -/
namespace Sys2Proof.Machine

/-- One bit iteration: shift right, then XOR the polynomial when the bit shifted out was 1 (41_checksum.md R62). -/
def bitStep (acc : Half) : Half :=
  if acc.getLsbD 0 then (acc >>> 1) ^^^ Config.crcPoly else acc >>> 1

/-- `n` bit iterations. -/
def bitSteps : Nat → Half → Half
  | 0, acc => acc
  | n + 1, acc => bitSteps n (bitStep acc)

/-- One input byte: XOR into accumulator bits 7:0, then 8 bit iterations (41_checksum.md R61). -/
def byteStep (acc : Half) (b : Byte) : Half := bitSteps Config.bitsPerByte (acc ^^^ b.setWidth 16)

/-- The modified CRC-16 of a template, with nothing applied to the final accumulator (41_checksum.md R60). -/
def crc16 (tmpl : List Byte) : Half := tmpl.foldl byteStep Config.crcInit

/-- The 2-byte Checksum of a template (41_checksum.md R63). -/
def checksumOf (tmpl : List Byte) : List Byte := checksumBytes (crc16 tmpl)

/-- The Wire Frame of a template: the template, then its checksum (42_packetizer.md R66, 10_state.md R23). -/
def frameOf (tmpl : List Byte) : List Byte := tmpl ++ checksumOf tmpl

/-- The response record of 30_encoding.md R44; `data` holds the valid bytes of R46. -/
structure Response where
  status : Status
  data : List Byte
  start : Half
  stop : Half
  deriving DecidableEq, Repr

/-- The response word: every bit the record does not define is 0 (30_encoding.md R44, R47). -/
def Response.pack (r : Response) : RspWord :=
  r.status.code.setWidth 128 ||| (bytesWord r.data <<< 8) ||| (r.start.setWidth 128 <<< 96)
    ||| (r.stop.setWidth 128 <<< 112)

/-- `return OK(data)` (00_scope.md R9; 30_encoding.md R46, R47). -/
def okResponse (data : List Byte) : Response := { status := .ok, data := data, start := 0#16, stop := 0#16 }

/-- `raise InvalidRange(start, end)`: the error is returned as the response and nothing else happens (00_scope.md R9,
60_exceptions.md R83, R86). -/
def raiseInvalidRange (start stop : Half) : Response :=
  { status := .invalidRange, data := [], start := start, stop := stop }

/-- `rsp.status` of a response word, bit 0 (30_encoding.md R44). -/
def rspStatus (r : RspWord) : Bool := r.getLsbD 0

/-- `rsp.data[0..n-1]` of a response word (30_encoding.md R44). -/
def rspData (n : Nat) (r : RspWord) : List Byte := byteFields n r

/-- `rsp.start` of a response word (30_encoding.md R44). -/
def rspStart (r : RspWord) : Half := halfField r 96

/-- `rsp.end` of a response word (30_encoding.md R44). -/
def rspEnd (r : RspWord) : Half := halfField r 112

/-- The response arrives at the run that waits for it (44_sequences.md R75). -/
def Run.deliver (r : RspWord) (c : Run) : Run := { c with phase := .received r }

/-- The run is left without a result (44_sequences.md R77 case 3). -/
def Run.abandon (c : Run) : Run := { c with phase := .abandoned }

/-- Replace the run of one requester; the outside has none. -/
def updateRun (who : Requester) (f : Run → Run) (runs : List Run) : List Run :=
  match who with
  | .run n => runs.modify n f
  | .outside => runs

/-- The requester of the outstanding request, or the outside when there is none. -/
def State.issuer (s : State) : Requester :=
  match s.request with
  | some o => o.issuer
  | none => .outside

/-- Return a response: it goes to the issuer of the request, and the block is ready for the next one (30_encoding.md R50,
20_memory.md R36). -/
def State.respond (s : State) (r : RspWord) : State :=
  { s with
    request := none
    response := some { issuer := s.issuer, word := r }
    runs := updateRun s.issuer (Run.deliver r) s.runs }

/-- Perform an operation on a template: a list of another length than 9 is refused (20_memory.md R33). -/
def withTemplate (tmpl : List Byte) (s : State) (answer : Response) : Host.Outcome State Fault Refusal :=
  if IsTemplate tmpl then .next (s.respond answer.pack) else .refused .templateLength

/-- A requester presents a request and the block takes it: a new transaction begins (30_encoding.md R50). -/
def State.issue (s : State) (who : Requester) (w : ReqWord) : State :=
  { s with request := some { issuer := who, word := w }, response := none }

/-- Put a request word where the block takes its next request, and let the block move next. -/
def State.placeRequest (s : State) (w : ReqWord) : State :=
  { s with request := some { issuer := .outside, word := w }, sched := .block :: s.sched }

/-- Reset takes the block: an outstanding request is abandoned with no response, and its run is left without a result
(70_reset_and_hazards.md R94, R95; log 11). -/
def State.takeReset (s : State) : State :=
  { s with
    request := none
    response := none
    runs := match s.request with
      | some o => updateRun o.issuer Run.abandon s.runs
      | none => s.runs }

/-- The refusal of a request word the decoder rejects (30_encoding.md R43). -/
def refusalOf : DecodeError → Refusal
  | .reservedBits => .reservedBits
  | .reservedOp => .reservedOp

end Sys2Proof.Machine
end

