-- ==== Sys2Proof/Machine/Checksum.lean ====
section
/-! DEFINITION. CHECKSUM, the Checksum Engine (41_checksum.md). -/
namespace Sys2Proof.Machine

/-- The response of CHECKSUM: OK, with the two checksum bytes, low byte first (41_checksum.md R59, R63). -/
def checksumResponse (tmpl : List Byte) : Response := okResponse (checksumOf tmpl)

/-- CHECKSUM: the modified CRC-16 of the nine template bytes (41_checksum.md R59). -/
def execChecksum (tmpl : List Byte) (s : State) : Host.Outcome State Fault Refusal :=
  withTemplate tmpl s (checksumResponse tmpl)

end Sys2Proof.Machine
end

