-- ==== Sys2Proof/Machine/Packetizer.lean ====
section
/-! DEFINITION. PACKETIZE, the Packetizer (42_packetizer.md). -/
namespace Sys2Proof.Machine

/-- The response of PACKETIZE: OK, with the 11-byte Wire Frame (42_packetizer.md R66). -/
def packetizeResponse (tmpl : List Byte) : Response := okResponse (frameOf tmpl)

/-- PACKETIZE: the template followed by its checksum; any nine bytes will do (42_packetizer.md R66, R68). -/
def execPacketize (tmpl : List Byte) (s : State) : Host.Outcome State Fault Refusal :=
  withTemplate tmpl s (packetizeResponse tmpl)

end Sys2Proof.Machine
end

