-- ==== Sys2Proof/Machine/RangeGuard.lean ====
section
/-! DEFINITION. RANGE, the Range Guard (43_range_guard.md). -/
namespace Sys2Proof.Machine

/-- The response of RANGE: InvalidRange with the bounds as given when the value exceeds max, else OK with no data
(43_range_guard.md R69 to R72). -/
def rangeResponse (value min max : Half) : Response :=
  match rangeStatus value max with
  | .invalidRange => raiseInvalidRange min max
  | .ok => okResponse []

/-- RANGE: one unsigned test against the inclusive upper bound (43_range_guard.md R69). -/
def execRange (value min max : Half) (s : State) : Host.Outcome State Fault Refusal :=
  .next (s.respond (rangeResponse value min max).pack)

end Sys2Proof.Machine
end

