-- ==== Sys2Proof/Machine/ValueWriter.lean ====
section
/-! DEFINITION. WRITE_VALUE, the Value Writer (40_value_writer.md). -/
namespace Sys2Proof.Machine

/-- The response of WRITE_VALUE: OK, with the new template (40_value_writer.md R56). -/
def writeValueResponse (tmpl : List Byte) (value : Half) : Response := okResponse (injectValue tmpl value)

/-- WRITE_VALUE: the value goes big-endian into template bytes 7 and 8, unchecked (40_value_writer.md R56, R58). -/
def execWriteValue (tmpl : List Byte) (value : Half) (s : State) : Host.Outcome State Fault Refusal :=
  withTemplate tmpl s (writeValueResponse tmpl value)

end Sys2Proof.Machine
end

