-- ==== Sys2Proof/Machine/Dispatch.lean ====
section
/-! DEFINITION. One arm per operation of spec/opcode_table.json. -/
namespace Sys2Proof.Machine

def exec (i : Instr) (s : State) : Host.Outcome State Fault Refusal :=
  match i with
  | .writeValue tmpl value => Sys2Proof.Machine.execWriteValue tmpl value s
  | .checksum tmpl => Sys2Proof.Machine.execChecksum tmpl s
  | .packetize tmpl => Sys2Proof.Machine.execPacketize tmpl s
  | .range value min max => Sys2Proof.Machine.execRange value min max s

end Sys2Proof.Machine
end

