-- ==== Sys2Proof/Machine/HostRun.lean ====
section
/-! DEFINITION. The moves of a host that runs a command sequence (44_sequences.md R74 to R77): checking and starting it,
issuing the request of a statement, taking the response in, returning, and running it again. -/
namespace Sys2Proof.Machine

/-- A run about to start with these inputs and this body (44_sequences.md R74, R75). -/
def Run.fresh (inputs : List (Ident × Half)) (body : List Stmt) : Run :=
  { inputs := inputs, body := body, env := [], k := 0, phase := .starting }

/-- The environment a run starts with: `env = inputs` (44_sequences.md R75). -/
def inputEnv (inputs : List (Ident × Half)) : Env := inputs.map fun p => (p.1, .num p.2)

/-- The sequence of a run is well formed (44_sequences.md R74). -/
def Run.wellFormed (c : Run) : Bool := sequenceWellFormed (c.inputs.map Prod.fst) c.body

/-- Check the sequence before it runs, then `env = inputs ; k = 0` (44_sequences.md R74, R75; log 13). -/
def Run.start (c : Run) : Run :=
  if c.wellFormed then { c with env := inputEnv c.inputs, k := 0, phase := .ready } else { c with phase := .refused }

/-- End the run with a result; `k` and `env` stay (44_sequences.md R76, R77). -/
def Run.finish (c : Run) (res : Result) : Run := { c with phase := .finished res }

/-- The run has no statement or operand to go on with; a well-formed sequence never comes to this (log 13). -/
def Run.refuse (c : Run) : Run := { c with phase := .refused }

/-- `env[d] = v ; k = k + 1` (44_sequences.md R75). -/
def Run.bind (c : Run) (d : Ident) (v : Val) : Run :=
  { c with env := (d, v) :: c.env, k := c.k + 1, phase := .ready }

/-- Take in the response to statement `k` (44_sequences.md R75, R76). -/
def Run.receive (c : Run) (r : RspWord) : Run :=
  match c.body[c.k]? with
  | some (.writeValue d _ _) => c.bind d (.template (rspData Config.templateLen r))
  | some (.checksum d _) => c.bind d (.checksum (rspData Config.checksumLen r))
  | some (.packetize d _) => c.bind d (.frame (rspData Config.frameLen r))
  | some (.range _ _ _) =>
    if rspStatus r then c.finish (.invalidRange (rspStart r) (rspEnd r))
    else { c with k := c.k + 1, phase := .ready }
  | some (.ret _) => c.refuse
  | none => c.refuse

/-- `RETURN x` (44_sequences.md R77). -/
def Run.returns (c : Run) (x : Ident) : Run :=
  match lookup c.env x with
  | some v => c.finish (.ok v)
  | none => c.refuse

/-- Run the sequence again from `k = 0`, once it has ended or was abandoned (44_sequences.md R77, 70_reset_and_hazards.md
R95; log 12). -/
def Run.again (c : Run) : Run :=
  match c.phase with
  | .finished _ => Run.fresh c.inputs c.body
  | .abandoned => Run.fresh c.inputs c.body
  | _ => c

/-- Put run `n` back. -/
def State.setRun (s : State) (n : Nat) (c : Run) : State := { s with runs := s.runs.set n c }

/-- The host of run `n` issues the request of its statement and waits (44_sequences.md R75). -/
def State.issueFor (s : State) (n : Nat) (c : Run) (i : Instr) : State :=
  (s.setRun n { c with phase := .waiting }).issue (.run n) (encode i)

/-- The host of run `n` carries out statement `st` of a run that is ready. The block takes one request at a time, so an
operation waits while another request is outstanding (30_encoding.md R50, log 6). -/
def State.runStmt (s : State) (n : Nat) (c : Run) (st : Stmt) : State :=
  match st with
  | .ret x => s.setRun n (c.returns x)
  | _ =>
    match st.instr? c.env with
    | none => s.setRun n c.refuse
    | some i => if s.request.isSome then s else s.issueFor n c i

/-- The next move of the host of run `n` (44_sequences.md R75); nothing, when the run waits or is over. -/
def State.hostMove (s : State) (n : Nat) : State :=
  match s.runs[n]? with
  | none => s
  | some c =>
    match c.phase with
    | .starting => s.setRun n c.start
    | .ready =>
      match c.body[c.k]? with
      | none => s.setRun n c.refuse
      | some st => s.runStmt n c st
    | .received r => s.setRun n (c.receive r)
    | .waiting => s
    | .finished _ => s
    | .abandoned => s
    | .refused => s

/-- A host sets out to run a sequence (44_sequences.md R74). -/
def State.load (s : State) (inputs : List (Ident × Half)) (body : List Stmt) : State :=
  { s with runs := s.runs ++ [Run.fresh inputs body] }

/-- The host of run `n` runs its sequence again. -/
def State.restart (s : State) (n : Nat) : State := { s with runs := s.runs.modify n Run.again }

/-- The host of a run in this phase has a move to make. -/
def Phase.canMove : Phase → Bool
  | .starting => true
  | .ready => true
  | .received _ => true
  | .waiting => false
  | .finished _ => false
  | .abandoned => false
  | .refused => false

/-- The first run whose host has a move to make. -/
def firstMovable (runs : List Run) : Option Nat := runs.findIdx? fun c => c.phase.canMove

end Sys2Proof.Machine
end

