-- ==== Sys2Proof/Machine/Turn.lean ====
section
/-! DEFINITION. One turn of the machine: the block performs the outstanding request, or the agent the schedule names moves,
or, when the schedule is empty, the first agent that can move does (log 4). -/
namespace Sys2Proof.Machine

/-- The block performs the outstanding request as one indivisible step (20_memory.md R36); a request that does not decode
is refused (30_encoding.md R43); with none outstanding the block is idle. -/
def State.serve (s : State) : Host.Outcome State Fault Refusal :=
  match s.request with
  | none => .next s
  | some o =>
    match decode o.word with
    | .ok i => exec i s
    | .error e => .refused (refusalOf e)

/-- The turn when the outside has chosen nothing: the block first, then the first host that can move; else the machine is
idle (log 4). -/
def State.defaultTurn (s : State) : Host.Outcome State Fault Refusal :=
  match s.request with
  | some _ => s.serve
  | none =>
    match firstMovable s.runs with
    | some n => .next (s.hostMove n)
    | none => .next s

/-- A requester outside presents a request word: the block takes it when it is free, and first performs the request it has
when it is not (30_encoding.md R50, log 6). -/
def State.presentTurn (s : State) (w : ReqWord) (rest : List Move) : Host.Outcome State Fault Refusal :=
  match s.request with
  | some _ => s.serve
  | none => .next (State.issue { s with sched := rest } .outside w)

/-- The turn the schedule names. -/
def State.scheduledTurn (s : State) (m : Move) (rest : List Move) : Host.Outcome State Fault Refusal :=
  match m with
  | .block => State.serve { s with sched := rest }
  | .run n => .next (State.hostMove { s with sched := rest } n)
  | .request w => s.presentTurn w rest
  | .load inputs body => .next (State.load { s with sched := rest } inputs body)
  | .restart n => .next (State.restart { s with sched := rest } n)
  | .reset => .next (State.takeReset { s with sched := rest })

/-- One turn of the machine. -/
def State.turn (s : State) : Host.Outcome State Fault Refusal :=
  match s.sched with
  | [] => s.defaultTurn
  | m :: rest => s.scheduledTurn m rest

end Sys2Proof.Machine
end

