-- ==== Sys2Proof/Machine/Step.lean ====
section
/-! DEFINITION. The step of the machine, and where it takes its next request. -/
namespace Sys2Proof.Machine

/-- One step: one turn of one agent (00_scope.md R10, log 1). -/
def step (s : State) : Host.Outcome State Fault Refusal := s.turn

/-- The state with the request word whose low `nbits` bits are those of `w` outstanding, and the block to move next, so that
the next step performs exactly it (log 3). -/
def State.withFetchWord (s : State) (nbits w : Nat) : State := s.placeRequest (tableWord nbits w)

end Sys2Proof.Machine
end

