-- ==== Sys2Proof/Machine/Assemble.lean ====
section
/-! DEFINITION. The assembler of command sequences: source statements with literals not yet checked (30_encoding.md R51), the
pseudo-instructions RANGE with a maximum only (R52) and FRAME (R53), and their assembly to the statements of
44_sequences.md R74. -/
namespace Sys2Proof.Machine

/-- A source operand: a number, a name, or a list of byte literals (30_encoding.md R51). -/
inductive SrcOperand where
  | lit (n : Nat)
  | name (s : String)
  | bytes (bs : List Nat)
  deriving DecidableEq, Repr

/-- A source statement: the operation statements and RETURN (30_encoding.md R51), and the pseudo-instructions. -/
inductive SrcStmt where
  | writeValue (dst : String) (tmpl value : SrcOperand)
  | checksum (dst : String) (tmpl : SrcOperand)
  | packetize (dst : String) (tmpl : SrcOperand)
  | range (value min max : SrcOperand)
  | ret (x : String)
  /-- `RANGE <value>, <max>` (30_encoding.md R52) -/
  | rangeMax (value max : SrcOperand)
  /-- `FRAME <dst>, <tmpl>, <value>` (30_encoding.md R53) -/
  | frameValue (dst : String) (tmpl value : SrcOperand)
  /-- `FRAME <dst>, <tmpl>` (30_encoding.md R53) -/
  | frame (dst : String) (tmpl : SrcOperand)
  deriving DecidableEq, Repr

/-- An assembly error, which is no request (30_encoding.md R51). -/
inductive AsmError where
  /-- a literal above 65535, or a byte literal above 255 -/
  | literalRange
  /-- a template literal of another length than nine -/
  | templateLiteral
  /-- an operand of a form its position does not take -/
  | operandForm
  /-- a line that is no statement -/
  | badLine
  deriving DecidableEq, Repr

/-- A 16-bit operand: a literal from 0 to 65535, or a name (30_encoding.md R51). -/
def SrcOperand.toNum : SrcOperand → Except AsmError NumOperand
  | .lit n => if n < 2 ^ 16 then .ok (.lit (BitVec.ofNat 16 n)) else .error .literalRange
  | .name s => .ok (.name (.user s))
  | .bytes _ => .error .operandForm

/-- A template operand: nine byte literals from 0 to 255, or a name (30_encoding.md R51). -/
def SrcOperand.toTmpl : SrcOperand → Except AsmError TmplOperand
  | .bytes bs =>
    if bs.length ≠ Config.templateLen then .error .templateLiteral
    else if bs.all (fun b => decide (b < 2 ^ 8)) then .ok (.lit (bs.map (BitVec.ofNat 8)))
    else .error .literalRange
  | .name s => .ok (.name (.user s))
  | .lit _ => .error .operandForm

/-- WRITE_VALUE with its operands assembled. -/
def asmWriteValue (dst : Ident) (tmpl value : SrcOperand) : Except AsmError Stmt :=
  match tmpl.toTmpl, value.toNum with
  | .ok t, .ok v => .ok (.writeValue dst t v)
  | .error e, _ => .error e
  | .ok _, .error e => .error e

/-- RANGE with its operands assembled; `min` is already an operand. -/
def asmRange (value : SrcOperand) (min : Except AsmError NumOperand) (max : SrcOperand) : Except AsmError Stmt :=
  match value.toNum, min, max.toNum with
  | .ok v, .ok a, .ok b => .ok (.range v a b)
  | .error e, _, _ => .error e
  | .ok _, .error e, _ => .error e
  | .ok _, .ok _, .error e => .error e

/-- The statements a source statement expands to; `line` makes the name `%t` of a FRAME fresh (30_encoding.md R52, R53;
log 16). -/
def SrcStmt.expand (line : Nat) : SrcStmt → Except AsmError (List Stmt)
  | .writeValue d t v => (asmWriteValue (.user d) t v).map fun s => [s]
  | .checksum d t => t.toTmpl.map fun t => [.checksum (.user d) t]
  | .packetize d t => t.toTmpl.map fun t => [.packetize (.user d) t]
  | .range v a b => (asmRange v a.toNum b).map fun s => [s]
  | .ret x => .ok [.ret (.user x)]
  | .rangeMax v b => (asmRange v (.ok (.lit Config.defaultMin)) b).map fun s => [s]
  | .frameValue d t v =>
    (asmWriteValue (.temp line) t v).map fun s => [s, .packetize (.user d) (.name (.temp line))]
  | .frame d t => t.toTmpl.map fun t => [.packetize (.user d) t]

/-- The body of a sequence assembled from its source statements, the first of them at index `line`. -/
def assembleFrom (line : Nat) : List SrcStmt → Except AsmError (List Stmt)
  | [] => .ok []
  | s :: rest =>
    match s.expand line, assembleFrom (line + 1) rest with
    | .ok body, .ok more => .ok (body ++ more)
    | .error e, _ => .error e
    | .ok _, .error e => .error e

/-- The body of a sequence assembled from its source statements. -/
def assemble (src : List SrcStmt) : Except AsmError (List Stmt) := assembleFrom 0 src

end Sys2Proof.Machine
end

