-- ==== Sys2Proof/Machine/AsmText.lean ====
section
/-! DEFINITION. The text form of a command sequence (30_encoding.md R51): one statement per line, operands separated by
commas, a template literal in brackets, decimal or `0x` hexadecimal literals, comments from `;` to the end of the line. What
R51 does not say of the text (the letters of a name, white space, blank lines) is log 17. -/
namespace Sys2Proof.Machine

/-- A token of a line. -/
inductive Token where
  | word (w : List Char)
  | comma
  | leftBracket
  | rightBracket
  deriving DecidableEq, Repr

/-- The word collected so far (last letter first), as a token when it is not empty. -/
def flushWord (cur : List Char) : List Token := if cur.isEmpty then [] else [.word cur.reverse]

/-- The tokens of a line; `cur` is the word being collected, last letter first. -/
def tokenize (cur : List Char) : List Char → List Token
  | [] => flushWord cur
  | c :: cs =>
    if c = ';' then flushWord cur
    else if c = ',' then flushWord cur ++ .comma :: tokenize [] cs
    else if c = '[' then flushWord cur ++ .leftBracket :: tokenize [] cs
    else if c = ']' then flushWord cur ++ .rightBracket :: tokenize [] cs
    else if c = ' ' ∨ c = '\t' ∨ c = '\r' then flushWord cur ++ tokenize [] cs
    else tokenize (c :: cur) cs

/-- The value of a hexadecimal digit. -/
def hexDigit (c : Char) : Option Nat :=
  let n := c.toNat
  if 48 ≤ n ∧ n ≤ 57 then some (n - 48)
  else if 65 ≤ n ∧ n ≤ 70 then some (n - 55)
  else if 97 ≤ n ∧ n ≤ 102 then some (n - 87)
  else none

/-- The number its digits spell in a base, most significant first; none where a digit is not one of the base. -/
def digitsValue (base : Nat) (acc : Nat) : List Char → Option Nat
  | [] => some acc
  | c :: cs =>
    match hexDigit c with
    | some d => if d < base then digitsValue base (acc * base + d) cs else none
    | none => none

/-- A literal: `0x` and hexadecimal digits, or decimal digits. -/
def literal (w : List Char) : Option Nat :=
  match w with
  | [] => none
  | ['0', 'x'] => none
  | '0' :: 'x' :: ds => digitsValue 16 0 ds
  | ds => digitsValue 10 0 ds

/-- A letter or an underscore. -/
def isNameStart (c : Char) : Bool :=
  let n := c.toNat
  decide ((65 ≤ n ∧ n ≤ 90) ∨ (97 ≤ n ∧ n ≤ 122) ∨ n = 95)

/-- A letter, an underscore or a decimal digit. -/
def isNameChar (c : Char) : Bool :=
  let n := c.toNat
  isNameStart c || decide (48 ≤ n ∧ n ≤ 57)

/-- A word as an operand: a name, or a literal. -/
def wordOperand (w : List Char) : Option SrcOperand :=
  match w with
  | [] => none
  | c :: cs =>
    if isNameStart c then if cs.all isNameChar then some (.name (String.ofList w)) else none
    else (literal w).map .lit

/-- Where the reading of an operand list stands. -/
inductive OperandScan where
  /-- an operand comes next -/
  | before (done : List SrcOperand)
  /-- a comma or the end comes next -/
  | after (done : List SrcOperand)
  /-- a byte literal comes next -/
  | beforeByte (done : List SrcOperand) (bs : List Nat)
  /-- a comma or the closing bracket comes next -/
  | afterByte (done : List SrcOperand) (bs : List Nat)
  /-- the list is not well formed -/
  | bad
  deriving DecidableEq, Repr

/-- Read one token of an operand list. -/
def OperandScan.next : OperandScan → Token → OperandScan
  | .before done, .word w =>
    match wordOperand w with
    | some o => .after (done ++ [o])
    | none => .bad
  | .before done, .leftBracket => .beforeByte done []
  | .after done, .comma => .before done
  | .beforeByte done bs, .word w =>
    match literal w with
    | some b => .afterByte done (bs ++ [b])
    | none => .bad
  | .afterByte done bs, .comma => .beforeByte done bs
  | .afterByte done bs, .rightBracket => .after (done ++ [.bytes bs])
  | _, _ => .bad

/-- The operands of a statement. -/
def readOperands (toks : List Token) : Option (List SrcOperand) :=
  match toks.foldl OperandScan.next (.before []) with
  | .after done => some done
  | _ => none

/-- A statement from its mnemonic and operands (30_encoding.md R51 to R53). -/
def readStmt (mnemonic : List Char) (ops : List SrcOperand) : Option SrcStmt :=
  if mnemonic = "WRITE_VALUE".toList then
    match ops with
    | [.name d, t, v] => some (.writeValue d t v)
    | _ => none
  else if mnemonic = "CHECKSUM".toList then
    match ops with
    | [.name d, t] => some (.checksum d t)
    | _ => none
  else if mnemonic = "PACKETIZE".toList then
    match ops with
    | [.name d, t] => some (.packetize d t)
    | _ => none
  else if mnemonic = "RANGE".toList then
    match ops with
    | [v, a, b] => some (.range v a b)
    | [v, b] => some (.rangeMax v b)
    | _ => none
  else if mnemonic = "RETURN".toList then
    match ops with
    | [.name x] => some (.ret x)
    | _ => none
  else if mnemonic = "FRAME".toList then
    match ops with
    | [.name d, t, v] => some (.frameValue d t v)
    | [.name d, t] => some (.frame d t)
    | _ => none
  else none

/-- The statement of a line: none where it holds only white space and a comment. -/
def readLine (line : List Char) : Except AsmError (Option SrcStmt) :=
  match tokenize [] line with
  | [] => .ok none
  | .word m :: toks =>
    match readOperands toks with
    | some ops => match readStmt m ops with
      | some s => .ok (some s)
      | none => .error .badLine
    | none => .error .badLine
  | _ => .error .badLine

/-- The lines of a text; `cur` is the line being collected, last letter first. -/
def splitLines (cur : List Char) : List Char → List (List Char)
  | [] => [cur.reverse]
  | c :: cs => if c = '\n' then cur.reverse :: splitLines [] cs else splitLines (c :: cur) cs

/-- The statements of the lines of a text. -/
def readLines : List (List Char) → Except AsmError (List SrcStmt)
  | [] => .ok []
  | l :: ls =>
    match readLine l, readLines ls with
    | .ok (some s), .ok ss => .ok (s :: ss)
    | .ok none, .ok ss => .ok ss
    | .error e, _ => .error e
    | .ok _, .error e => .error e

/-- The source statements of a text. -/
def readText (text : String) : Except AsmError (List SrcStmt) := readLines (splitLines [] text.toList)

/-- The body of a sequence assembled from its text (30_encoding.md R51 to R53). -/
def assembleText (text : String) : Except AsmError (List Stmt) :=
  match readText text with
  | .ok src => assemble src
  | .error e => .error e

end Sys2Proof.Machine
end

