-- ==== Sys2Proof/Safety.lean ====
section
/-! DEFINITION. The terms claims are stated in: the response of an operation as a function of its operands, what a sequence
comes to by itself (no request word, no response word and no other agent in sight), and the invariant that ties every run of
the machine to that. -/
namespace Sys2Proof.Machine

/-- The response of an operation: "a function of that request's operand fields alone" (10_state.md R18). -/
def responseOf : Instr → Response
  | .writeValue tmpl value => writeValueResponse tmpl value
  | .checksum tmpl => checksumResponse tmpl
  | .packetize tmpl => packetizeResponse tmpl
  | .range value min max => rangeResponse value min max

/-- The block moves next: the schedule names it, or names nothing. -/
def State.BlockMovesNext (s : State) : Prop := s.sched = [] ∨ ∃ rest, s.sched = .block :: rest

/-- The state with the move at the head of its schedule used up. -/
def State.afterMove (s : State) : State := { s with sched := s.sched.tail }

/-- The names a 16-bit operand reads, with the kind its position needs (44_sequences.md R74). -/
def NumOperand.reads : NumOperand → List (Ident × Option Kind)
  | .lit _ => []
  | .name x => [(x, some .num)]

/-- The names a template operand reads, with the kind its position needs (44_sequences.md R74). -/
def TmplOperand.reads : TmplOperand → List (Ident × Option Kind)
  | .lit _ => []
  | .name x => [(x, some .template)]

/-- The names a statement reads, each with the kind its position needs; `RETURN` takes a name of any kind (44_sequences.md
R74, R77). -/
def Stmt.reads : Stmt → List (Ident × Option Kind)
  | .writeValue _ t v => t.reads ++ v.reads
  | .checksum _ t => t.reads
  | .packetize _ t => t.reads
  | .range v a b => v.reads ++ a.reads ++ b.reads
  | .ret x => [(x, none)]

/-- The `<dst>` of a statement and the kind of value it is bound to (30_encoding.md R51, 44_sequences.md R74). -/
def Stmt.binds : Stmt → Option (Ident × Kind)
  | .writeValue d _ _ => some (d, .template)
  | .checksum d _ => some (d, .checksum)
  | .packetize d _ => some (d, .frame)
  | .range _ _ _ => none
  | .ret _ => none

/-- The template operand of a statement. -/
def Stmt.tmpl? : Stmt → Option TmplOperand
  | .writeValue _ t _ => some t
  | .checksum _ t => some t
  | .packetize _ t => some t
  | .range _ _ _ => none
  | .ret _ => none

/-- A name is bound when statement `j` runs: it is an input, which is a number, or the `<dst>` of an earlier statement
(44_sequences.md R74). -/
def BoundBefore (inputs : List Ident) (body : List Stmt) (j : Nat) (x : Ident) (κ : Kind) : Prop :=
  (x ∈ inputs ∧ κ = .num) ∨ ∃ (i : Nat) (st : Stmt), i < j ∧ body[i]? = some st ∧ st.binds = some (x, κ)

/-- The conditions of 44_sequences.md R74 in its own words, statement by statement; `sequenceWellFormed` is the check that
walks the body. -/
structure SequenceRules (inputs : List Ident) (body : List Stmt) : Prop where
  /-- the input names are distinct (log 14) -/
  inputs_distinct : inputs.Nodup
  /-- "every name it reads is an input or is bound by an earlier statement" -/
  reads_bound : ∀ (j : Nat) (st : Stmt) (x : Ident) (need : Option Kind), body[j]? = some st → (x, need) ∈ st.reads →
    ∃ κ, BoundBefore inputs body j x κ
  /-- "every `<dst>` is fresh" -/
  dst_fresh : ∀ (j : Nat) (st : Stmt) (d : Ident) (κ κ' : Kind), body[j]? = some st → st.binds = some (d, κ) →
    ¬ BoundBefore inputs body j d κ'
  /-- "every operand has the kind its position needs" -/
  kinds_match : ∀ (j : Nat) (st : Stmt) (x : Ident) (need κ : Kind), body[j]? = some st → (x, some need) ∈ st.reads →
    BoundBefore inputs body j x κ → κ = need
  /-- a template literal is nine bytes (30_encoding.md R51, log 9) -/
  literals_nine : ∀ (j : Nat) (st : Stmt) (bs : List Byte), body[j]? = some st → st.tmpl? = some (.lit bs) → bs.length = 9
  /-- "its last statement is `RETURN`, and no other statement is" -/
  return_last : body ≠ [] ∧
    ∀ (j : Nat) (st : Stmt), body[j]? = some st → ((∃ x, st = .ret x) ↔ j + 1 = body.length)

/-- What one statement does to a run: it goes on with an environment, it ends with a result, or it has no meaning because an
operand has no value. -/
inductive StmtEffect where
  | goesOn (env : Env)
  | ends (res : Result)
  | stuck
  deriving DecidableEq, Repr

/-- The effect of a statement, computed from the operations of 40_value_writer.md to 43_range_guard.md directly
(44_sequences.md R75 to R77). -/
def Stmt.effect (env : Env) : Stmt → StmtEffect
  | .writeValue d t v =>
    match t.eval env, v.eval env with
    | some bs, some n => .goesOn ((d, .template (injectValue bs n)) :: env)
    | _, _ => .stuck
  | .checksum d t =>
    match t.eval env with
    | some bs => .goesOn ((d, .checksum (checksumOf bs)) :: env)
    | none => .stuck
  | .packetize d t =>
    match t.eval env with
    | some bs => .goesOn ((d, .frame (frameOf bs)) :: env)
    | none => .stuck
  | .range v a b =>
    match v.eval env, a.eval env, b.eval env with
    | some n, some lo, some hi => if hi < n then .ends (.invalidRange lo hi) else .goesOn env
    | _, _, _ => .stuck
  | .ret x =>
    match lookup env x with
    | some v => .ends (.ok v)
    | none => .stuck

/-- What the statements of a sequence come to under an environment; none where a statement is stuck or the RETURN is
missing. -/
def resultFrom (env : Env) : List Stmt → Option Result
  | [] => none
  | st :: rest =>
    match st.effect env with
    | .goesOn env' => resultFrom env' rest
    | .ends res => some res
    | .stuck => none

/-- The result a sequence determines: a function of its inputs and its body alone (44_sequences.md R75). -/
def sequenceResult (inputs : List (Ident × Half)) (body : List Stmt) : Option Result :=
  resultFrom (inputEnv inputs) body

/-- The environment after the first `k` statements of a body, when each of them goes on. -/
def envAfter : Nat → Env → List Stmt → Option Env
  | 0, env, _ => some env
  | _ + 1, _, [] => none
  | k + 1, env, st :: rest =>
    match st.effect env with
    | .goesOn env' => envAfter k env' rest
    | .ends _ => none
    | .stuck => none

/-- A run is on course: its sequence is well formed, and its environment is the one the first `k` statements leave. -/
def Run.OnCourse (c : Run) : Prop :=
  c.wellFormed = true ∧ envAfter c.k (inputEnv c.inputs) c.body = some c.env

/-- The run stands at a statement that issues the operation `i`. -/
def Run.Asks (c : Run) (i : Instr) : Prop := ∃ st, c.body[c.k]? = some st ∧ st.instr? c.env = some i

/-- Run `n` is where its sequence says it should be: on course while it runs, its request outstanding while it waits, the
response it has received the one its statement's operation gives, ended only where its statement ends it, and refused only
when its sequence is not well formed. -/
def Run.Sound (s : State) (n : Nat) (c : Run) : Prop :=
  match c.phase with
  | .starting => c.env = [] ∧ c.k = 0
  | .ready => c.OnCourse
  | .waiting => c.OnCourse ∧ ∃ i, c.Asks i ∧ s.request = some { issuer := .run n, word := encode i }
  | .received r => c.OnCourse ∧ ∃ i, c.Asks i ∧ r = (responseOf i).pack
  | .finished res => c.OnCourse ∧ ∃ st, c.body[c.k]? = some st ∧ st.effect c.env = .ends res
  | .abandoned => c.OnCourse
  | .refused => c.wellFormed = false ∧ c.env = [] ∧ c.k = 0

/-- The invariant of the machine: every run is sound, and a request issued by a run has a run that waits for it. -/
structure State.Inv (s : State) : Prop where
  runs_sound : ∀ (n : Nat) (c : Run), s.runs[n]? = some c → c.Sound s n
  issuer_waits : ∀ (n : Nat) (w : ReqWord), s.request = some { issuer := .run n, word := w } →
    ∃ c : Run, s.runs[n]? = some c ∧ c.phase = .waiting

/-- A run is over: it has a result, was abandoned or was refused (44_sequences.md R74, R77). -/
def Phase.isOver : Phase → Bool
  | .finished _ => true
  | .abandoned => true
  | .refused => true
  | .starting => false
  | .ready => false
  | .waiting => false
  | .received _ => false

/-- One bit of the serial form of the checksum circuit: the input bit joins the low bit of the accumulator, and the sum
decides whether the polynomial is added after the shift (41_checksum.md R65 allows a bit-serial circuit). -/
def serialStep (acc : Half) (b : Bool) : Half :=
  (acc >>> 1) ^^^ (if Bool.xor (acc.getLsbD 0) b then Config.crcPoly else 0#16)

/-- The bits of a byte, least significant first (20_memory.md R29). -/
def bitsOf (b : Byte) : List Bool := (List.range Config.bitsPerByte).map b.getLsbD

/-- The lookup table of the table-driven form of the checksum circuit (41_checksum.md R65). -/
def crcTable (b : Byte) : Half := bitSteps Config.bitsPerByte (b.setWidth 16)

/-- One byte of the table-driven form: shift out the low byte and look its sum with the input byte up. -/
def tableStep (acc : Half) (b : Byte) : Half := (acc >>> 8) ^^^ crcTable (acc.setWidth 8 ^^^ b)

end Sys2Proof.Machine
end

