-- ==== Sys2Proof/Certificates/Slice0/Obligations.lean ====
section
/-! DEFINITION. The statements about the framing core, from the numbered rules of spec/. -/

open Sys2Proof Sys2Proof.Machine

/-! ## The request word and its decoder -/

/-- 30_encoding.md R49, with R40 and R54: which operation the low byte selects and which bits its operands are; every other
low byte is refused. -/
def Obligations.DecodeIsSelectedByTheLowByte : Prop :=
  ∀ w : ReqWord, ∃ t : List Byte,
    t.length = 9 ∧
    (∀ (i : Nat) (b : Byte), t[i]? = some b → ∀ j, j < 8 → b.getLsbD j = w.getLsbD (8 * i + 8 + j)) ∧
    (w.extractLsb' 0 8 = 0x00#8 → decode w = .ok (.writeValue t (w.extractLsb' 80 16))) ∧
    (w.extractLsb' 0 8 = 0x01#8 → decode w = .ok (.checksum t)) ∧
    (w.extractLsb' 0 8 = 0x02#8 → decode w = .ok (.packetize t)) ∧
    (w.extractLsb' 0 8 = 0x03#8 →
      decode w = .ok (.range (w.extractLsb' 80 16) (w.extractLsb' 96 16) (w.extractLsb' 112 16))) ∧
    (3 < (w.extractLsb' 0 8).toNat → ∃ e, decode w = .error e)

/-- 30_encoding.md R42: a decoder accepts any value in an unused field, an unused field changes neither the operation decoded
nor the outcome of the step that performs it, and the canonical encoding has zeros there. -/
def Obligations.UnusedRequestFieldsAreIgnored : Prop :=
  (∀ (s : State) (who : Requester) (w w' : ReqWord), s.BlockMovesNext →
    ((w.extractLsb' 0 8 = 0x00#8 ∧ w.extractLsb' 0 96 = w'.extractLsb' 0 96) ∨
     (w.extractLsb' 0 8 = 0x01#8 ∧ w.extractLsb' 0 80 = w'.extractLsb' 0 80) ∨
     (w.extractLsb' 0 8 = 0x02#8 ∧ w.extractLsb' 0 80 = w'.extractLsb' 0 80) ∨
     (w.extractLsb' 0 8 = 0x03#8 ∧ w.extractLsb' 0 8 = w'.extractLsb' 0 8 ∧
       w.extractLsb' 80 48 = w'.extractLsb' 80 48)) →
    (∃ i, decode w = .ok i) ∧ decode w' = decode w ∧
    step { s with request := some { issuer := who, word := w } } =
      step { s with request := some { issuer := who, word := w' } }) ∧
  (∀ (tmpl : List Byte) (value : Half), tmpl.length = 9 → (encode (.writeValue tmpl value)).extractLsb' 96 32 = 0#32) ∧
  (∀ tmpl : List Byte, tmpl.length = 9 → (encode (.checksum tmpl)).extractLsb' 80 48 = 0#48) ∧
  (∀ tmpl : List Byte, tmpl.length = 9 → (encode (.packetize tmpl)).extractLsb' 80 48 = 0#48) ∧
  (∀ value min max : Half, (encode (.range value min max)).extractLsb' 8 72 = 0#72)

/-- Every well-formed instruction survives encoding and decoding, with every operand at every value. -/
def Obligations.DecodeInvertsEncode : Prop :=
  ∀ i : Instr, i.wellFormed = true → decode (encode i) = .ok i

/-- What the decoder reads is well formed, and encoding it gives the word back with its unused fields cleared. -/
def Obligations.EncodeOfDecodeClearsUnusedFields : Prop :=
  ∀ (w : ReqWord) (i : Instr), decode w = .ok i →
    i.wellFormed = true ∧
    (opcode i = 0#3 → encode i = (w.extractLsb' 0 96).setWidth 128) ∧
    (opcode i = 1#3 ∨ opcode i = 2#3 → encode i = (w.extractLsb' 0 80).setWidth 128) ∧
    (opcode i = 3#3 → encode i = (w.extractLsb' 0 8).setWidth 128 ||| ((w.extractLsb' 80 48).setWidth 128 <<< 80))

/-- 30_encoding.md R43: a request whose reserved bits are not 0, or whose operation code is 4 to 7, is refused with no
response, whatever its other fields hold (60_exceptions.md R85: no InvalidRange either); every other request has a step.
That the refusal stops the whole machine, and which of the two names it bears, are the model's (logs 7 and 8). -/
def Obligations.ExactlyReservedRequestsAreRefused : Prop :=
  ∀ (s : State) (who : Requester) (w : ReqWord), s.BlockMovesNext →
    s.request = some { issuer := who, word := w } →
    (w.extractLsb' 3 5 ≠ 0#5 → step s = .refused .reservedBits) ∧
    (w.extractLsb' 3 5 = 0#5 → 4 ≤ (w.extractLsb' 0 3).toNat → step s = .refused .reservedOp) ∧
    (w.extractLsb' 3 5 = 0#5 → (w.extractLsb' 0 3).toNat ≤ 3 → ∃ t, step s = .next t)

/-- Words written out from 30_encoding.md R40 and R54, and the operations they stand for. -/
def Obligations.SampleRequestWordsDecode : Prop :=
  decode 0x00000000012C00000706050403020100#128 = .ok (.writeValue [1, 2, 3, 4, 5, 6, 7, 0, 0] 300#16) ∧
  decode 0x00000000000039383736353433323101#128 =
    .ok (.checksum [0x31, 0x32, 0x33, 0x34, 0x35, 0x36, 0x37, 0x38, 0x39]) ∧
  decode 0x0000000000002C010706050403020102#128 = .ok (.packetize [1, 2, 3, 4, 5, 6, 7, 0x01, 0x2C]) ∧
  decode 0x0064000A006500000000000000000003#128 = .ok (.range 101#16 10#16 100#16) ∧
  decode 0x00000000000000000000000000000004#128 = .error .reservedOp ∧
  decode 0x00000000000000000000000000000083#128 = .error .reservedBits

/-! ## A step of the block -/

/-- When the block moves next and the outstanding request decodes to `i`, the step is `exec i` with the block's move used
up; a requester that presents a word to a busy block waits while the block does the same. With no request outstanding the
block's move changes nothing. -/
def Obligations.StepRunsTheDecodedRequest : Prop :=
  (∀ (s : State) (o : Outstanding) (i : Instr), s.request = some o → decode o.word = .ok i →
    (s.BlockMovesNext → step s = exec i s.afterMove) ∧
    (∀ w rest, s.sched = .request w :: rest → step s = exec i s)) ∧
  (∀ (s : State) (rest : List Move), s.request = none → s.sched = .block :: rest → step s = .next s.afterMove)

/-- WRITE_VALUE from word to word (40_value_writer.md R56 through the layouts of 30_encoding.md R40, R44, R46 and R47), and
all that the step changes. -/
def Obligations.WriteValueAnswersItsRequestWord : Prop :=
  ∀ (s : State) (who : Requester) (w : ReqWord), s.BlockMovesNext →
    s.request = some { issuer := who, word := w } → w.extractLsb' 0 8 = 0x00#8 →
    ∃ (t : State) (r : RspWord), step s = .next t ∧
      t = { request := none, response := some { issuer := who, word := r },
            runs := updateRun who (Run.deliver r) s.runs, sched := s.sched.tail } ∧
      r.extractLsb' 0 8 = 0#8 ∧
      r.extractLsb' 8 56 = w.extractLsb' 8 56 ∧
      r.extractLsb' 64 8 = w.extractLsb' 88 8 ∧
      r.extractLsb' 72 8 = w.extractLsb' 80 8 ∧
      r.extractLsb' 80 48 = 0#48

/-- CHECKSUM from word to word (41_checksum.md R59, R63 through the layouts of 30_encoding.md R40, R44, R46 and R47), and all
that the step changes. -/
def Obligations.ChecksumAnswersItsRequestWord : Prop :=
  ∀ (s : State) (who : Requester) (w : ReqWord), s.BlockMovesNext →
    s.request = some { issuer := who, word := w } → w.extractLsb' 0 8 = 0x01#8 →
    ∃ (t : State) (r : RspWord), step s = .next t ∧
      t = { request := none, response := some { issuer := who, word := r },
            runs := updateRun who (Run.deliver r) s.runs, sched := s.sched.tail } ∧
      r.extractLsb' 0 8 = 0#8 ∧
      r.extractLsb' 8 16 = crc16 (byteFields 9 w) ∧
      r.extractLsb' 24 104 = 0#104

/-- PACKETIZE from word to word (42_packetizer.md R66 through the layouts of 30_encoding.md R40, R44, R46 and R47), and all
that the step changes. -/
def Obligations.PacketizeAnswersItsRequestWord : Prop :=
  ∀ (s : State) (who : Requester) (w : ReqWord), s.BlockMovesNext →
    s.request = some { issuer := who, word := w } → w.extractLsb' 0 8 = 0x02#8 →
    ∃ (t : State) (r : RspWord), step s = .next t ∧
      t = { request := none, response := some { issuer := who, word := r },
            runs := updateRun who (Run.deliver r) s.runs, sched := s.sched.tail } ∧
      r.extractLsb' 0 8 = 0#8 ∧
      r.extractLsb' 8 72 = w.extractLsb' 8 72 ∧
      r.extractLsb' 80 16 = crc16 (byteFields 9 w) ∧
      r.extractLsb' 96 32 = 0#32

/-- RANGE from word to word (43_range_guard.md R69 to R72 through the layouts of 30_encoding.md R40, R44, R46 and R47), and
all that the step changes. -/
def Obligations.RangeAnswersItsRequestWord : Prop :=
  ∀ (s : State) (who : Requester) (w : ReqWord), s.BlockMovesNext →
    s.request = some { issuer := who, word := w } → w.extractLsb' 0 8 = 0x03#8 →
    ∃ (t : State) (r : RspWord), step s = .next t ∧
      t = { request := none, response := some { issuer := who, word := r },
            runs := updateRun who (Run.deliver r) s.runs, sched := s.sched.tail } ∧
      ((w.extractLsb' 112 16).toNat < (w.extractLsb' 80 16).toNat →
        r.extractLsb' 0 96 = 1#96 ∧ r.extractLsb' 96 32 = w.extractLsb' 96 32) ∧
      ((w.extractLsb' 80 16).toNat ≤ (w.extractLsb' 112 16).toNat → r = 0#128)

/-! ## The four operations -/

/-- 40_value_writer.md R57: the new template of WRITE_VALUE, for every template and every value. -/
def Obligations.WriteValuePutsTheValueBigEndian : Prop :=
  ∀ (tmpl : List Byte) (value : Half) (s : State), tmpl.length = 9 →
    ∃ (t : State) (r : RspWord), exec (.writeValue tmpl value) s = .next t ∧
      t.response = some { issuer := s.issuer, word := r } ∧
      (rspData 9 r).length = 9 ∧
      (rspData 9 r)[7]? = some (BitVec.ofNat 8 (value.toNat / 256)) ∧
      (rspData 9 r)[8]? = some (BitVec.ofNat 8 (value.toNat % 256)) ∧
      (∀ i, i < 7 → (rspData 9 r)[i]? = tmpl[i]?) ∧
      t.request = none ∧ t.sched = s.sched ∧ t.runs = updateRun s.issuer (Run.deliver r) s.runs

/-- 41_checksum.md R63: CHECKSUM emits the 16-bit result low byte first, and PACKETIZE places the same two bytes, in the same
order, at frame bytes 9 and 10. -/
def Obligations.ChecksumEmitsTheLowByteFirst : Prop :=
  ∀ (tmpl : List Byte) (s : State), tmpl.length = 9 →
    ∃ (t t' : State) (r r' : RspWord),
      exec (.checksum tmpl) s = .next t ∧ t.response = some { issuer := s.issuer, word := r } ∧
      rspData 2 r = [BitVec.ofNat 8 ((crc16 tmpl).toNat % 256), BitVec.ofNat 8 ((crc16 tmpl).toNat / 256)] ∧
      exec (.packetize tmpl) s = .next t' ∧ t'.response = some { issuer := s.issuer, word := r' } ∧
      (rspData 11 r')[9]? = some (BitVec.ofNat 8 ((crc16 tmpl).toNat % 256)) ∧
      (rspData 11 r')[10]? = some (BitVec.ofNat 8 ((crc16 tmpl).toNat / 256)) ∧
      t.request = none ∧ t.sched = s.sched ∧ t.runs = updateRun s.issuer (Run.deliver r) s.runs ∧
      t'.request = none ∧ t'.sched = s.sched ∧ t'.runs = updateRun s.issuer (Run.deliver r') s.runs

/-- 42_packetizer.md R67: the frame is the template followed by what CHECKSUM answers for the same template. -/
def Obligations.FrameIsTemplateThenChecksum : Prop :=
  ∀ (tmpl : List Byte) (s s' : State), tmpl.length = 9 →
    ∃ (t t' : State) (r r' : RspWord),
      exec (.packetize tmpl) s = .next t ∧ t.response = some { issuer := s.issuer, word := r } ∧
      exec (.checksum tmpl) s' = .next t' ∧ t'.response = some { issuer := s'.issuer, word := r' } ∧
      (rspData 11 r).length = 11 ∧
      (rspData 11 r).take 9 = tmpl ∧
      (rspData 11 r).drop 9 = rspData 2 r' ∧
      rspData 11 r = tmpl ++ rspData 2 r'

/-- 43_range_guard.md R70: the guard's outcome does not depend on `min`, and a value below `min` passes when it is at most
`max`. -/
def Obligations.RangeNeverComparesWithMin : Prop :=
  ∀ (value min max : Half) (s : State),
    ∃ (t : State) (r : RspWord), exec (.range value min max) s = .next t ∧
      t.response = some { issuer := s.issuer, word := r } ∧
      (rspStatus r = true ↔ max.toNat < value.toNat) ∧
      (value.toNat < min.toNat → value.toNat ≤ max.toNat → r = 0#128) ∧
      (∀ (min' : Half) (t' : State) (r' : RspWord), exec (.range value min' max) s = .next t' →
        t'.response = some { issuer := s.issuer, word := r' } → rspStatus r' = rspStatus r) ∧
      t.request = none ∧ t.sched = s.sched ∧ t.runs = updateRun s.issuer (Run.deliver r) s.runs

/-- 43_range_guard.md R72, with R71: RANGE is performed alike whichever of its bounds is larger: it fails exactly when the
value exceeds `max`, and then reports `start = min` and `end = max` as given, and not the value. -/
def Obligations.FailedRangeReportsItsBounds : Prop :=
  ∀ (value min max : Half) (s : State),
    ∃ (t : State) (r : RspWord), exec (.range value min max) s = .next t ∧
      t.response = some { issuer := s.issuer, word := r } ∧
      (rspStatus r = true ↔ max.toNat < value.toNat) ∧
      (max.toNat < value.toNat → rspStart r = min ∧ rspEnd r = max ∧
        (∀ j, 1 ≤ j → j < 96 → r.getLsbD j = false) ∧
        (∀ (value' : Half) (t' : State) (r' : RspWord), max.toNat < value'.toNat →
          exec (.range value' min max) s = .next t' → t'.response = some { issuer := s.issuer, word := r' } → r' = r))

/-- 60_exceptions.md R83: the code, the cause, the source and the record of InvalidRange: status 1 comes from RANGE alone, when
the value exceeds `max`, and then the response records `min` and `max` and nothing else. -/
def Obligations.OnlyAFailedRangeReportsAnError : Prop :=
  ∀ (i : Instr) (s t : State) (r : RspWord), exec i s = .next t → t.response = some { issuer := s.issuer, word := r } →
    (r.getLsbD 0 = true ↔ ∃ value min max : Half, i = .range value min max ∧ max.toNat < value.toNat) ∧
    (∀ value min max : Half, i = .range value min max → max.toNat < value.toNat →
      r.extractLsb' 0 96 = 1#96 ∧ r.extractLsb' 96 16 = min ∧ r.extractLsb' 112 16 = max)

/-- 60_exceptions.md R84: WRITE_VALUE, CHECKSUM and PACKETIZE answer OK on every template and value. -/
def Obligations.TheThreeTransformsNeverFail : Prop :=
  ∀ (i : Instr) (s : State), i.wellFormed = true → opcode i ≠ 3#3 →
    ∃ (t : State) (r : RspWord), exec i s = .next t ∧ t.response = some { issuer := s.issuer, word := r } ∧
      rspStatus r = false

/-- 30_encoding.md R47: every bit of a response that R46 does not define for its operation is 0: the reserved bits, the data
bytes outside the valid ones, and the error payload of an OK response; so the response is a function of the request alone. -/
def Obligations.UndefinedResponseBitsAreZero : Prop :=
  ∀ (i : Instr) (s t : State) (r : RspWord), exec i s = .next t → t.response = some { issuer := s.issuer, word := r } →
    r.extractLsb' 1 7 = 0#7 ∧
    (opcode i = 0#3 → r.extractLsb' 80 16 = 0#16) ∧
    (opcode i = 1#3 → r.extractLsb' 24 72 = 0#72) ∧
    (opcode i = 3#3 → r.extractLsb' 8 88 = 0#88) ∧
    (rspStatus r = false → rspStart r = 0#16 ∧ rspEnd r = 0#16) ∧
    (∀ (s' t' : State) (r' : RspWord), exec i s' = .next t' → t'.response = some { issuer := s'.issuer, word := r' } →
      r' = r)

/-- 10_state.md R18 and 70_reset_and_hazards.md R96: the response is a function of the request alone, so from any two states
that hold the same request word, the first after reset among them, the block answers the same word. -/
def Obligations.ResponseDependsOnTheRequestAlone : Prop :=
  ∀ (s s' t : State) (who who' : Requester) (w : ReqWord) (r : RspWord), s.BlockMovesNext → s'.BlockMovesNext →
    s.request = some { issuer := who, word := w } → s'.request = some { issuer := who', word := w } →
    step s = .next t → t.response = some { issuer := who, word := r } →
    ∃ t', step s' = .next t' ∧ t'.response = some { issuer := who', word := r }

/-- What the operations leave unchanged: everything but the transaction and the phase of the run that issued it
(20_memory.md R26, R34). -/
def Obligations.OperationsChangeOnlyTheTransaction : Prop :=
  ∀ (i : Instr) (s t : State), exec i s = .next t →
    t.sched = s.sched ∧ t.request = none ∧ t.runs.length = s.runs.length ∧
    (∀ n, s.issuer ≠ .run n → t.runs[n]? = s.runs[n]?) ∧
    (∀ n c, s.issuer = .run n → s.runs[n]? = some c →
      ∃ c' r, t.runs[n]? = some c' ∧ t.response = some { issuer := .run n, word := r } ∧ c'.phase = .received r ∧
        c'.inputs = c.inputs ∧ c'.body = c.body ∧ c'.env = c.env ∧ c'.k = c.k)

/-- 20_memory.md R33: a list that is not nine bytes long is refused by every operation that takes a template. -/
def Obligations.ListsOfAnotherLengthAreRefused : Prop :=
  ∀ (tmpl : List Byte) (value : Half) (s : State), tmpl.length ≠ 9 →
    exec (.writeValue tmpl value) s = .refused .templateLength ∧
    exec (.checksum tmpl) s = .refused .templateLength ∧
    exec (.packetize tmpl) s = .refused .templateLength

/-! ## Byte orders and the checksum -/

/-- 20_memory.md R30: template bytes 7 and 8 read as one big-endian number are the value written, and frame bytes 9 and 10
read as one little-endian number are the final accumulator. -/
def Obligations.MixedWidthViewsGiveTheNumbersBack : Prop :=
  ∀ (tmpl : List Byte) (value : Half), tmpl.length = 9 →
    (∃ hi lo : Byte, (injectValue tmpl value)[7]? = some hi ∧ (injectValue tmpl value)[8]? = some lo ∧
      (hi.setWidth 16 <<< 8) ||| lo.setWidth 16 = value) ∧
    (∃ lo hi : Byte, (frameOf tmpl)[9]? = some lo ∧ (frameOf tmpl)[10]? = some hi ∧
      lo.setWidth 16 ||| (hi.setWidth 16 <<< 8) = crc16 tmpl)

/-- 40_value_writer.md R56, corner case: applying WRITE_VALUE twice keeps the second value only. -/
def Obligations.SecondWriteValueWins : Prop :=
  ∀ (tmpl : List Byte) (a b : Half) (s s₁ s₂ : State) (r₁ : RspWord), tmpl.length = 9 →
    exec (.writeValue tmpl a) s = .next s₁ → s₁.response = some { issuer := s.issuer, word := r₁ } →
    ∃ s₃ s₄ r, exec (.writeValue (rspData 9 r₁) b) s₂ = .next s₃ ∧ exec (.writeValue tmpl b) s = .next s₄ ∧
      s₃.response = some { issuer := s₂.issuer, word := r } ∧ s₄.response = some { issuer := s.issuer, word := r }

/-- 41_checksum.md R62: the bit tested is bit 0 before the shift, the shift is a halving, and the polynomial is XORed in
after it. -/
def Obligations.BitStepHalvesThenAddsThePolynomial : Prop :=
  ∀ acc : Half,
    (acc.toNat % 2 = 0 → (bitStep acc).toNat = acc.toNat / 2) ∧
    (acc.toNat % 2 = 1 → (bitStep acc).toNat = (acc.toNat / 2) ^^^ 0xA001)

/-- 41_checksum.md R64 and R65: the checksum is what a bit-serial circuit computes in exactly 72 iterations, on the bits of
the nine bytes in order, each byte least significant bit first (20_memory.md R29). -/
def Obligations.ChecksumEqualsTheBitSerialCircuit : Prop :=
  ∀ tmpl : List Byte, tmpl.length = 9 →
    (tmpl.flatMap bitsOf).length = 72 ∧ crc16 tmpl = (tmpl.flatMap bitsOf).foldl serialStep 0xFFFF#16

/-- 41_checksum.md R65: a circuit with a 256-entry lookup table per byte computes the same checksum. -/
def Obligations.ChecksumEqualsTheTableCircuit : Prop :=
  ∀ tmpl : List Byte, tmpl.length = 9 → crc16 tmpl = tmpl.foldl tableStep 0xFFFF#16

/-- 41_checksum.md R59, corner case: the result depends on all nine bytes: changing any one byte changes the checksum. -/
def Obligations.ChecksumDependsOnEveryByte : Prop :=
  ∀ (tmpl : List Byte) (i : Nat) (b : Byte), tmpl.length = 9 → i < 9 → tmpl[i]? ≠ some b →
    crc16 (tmpl.set i b) ≠ crc16 tmpl

/-- The checksums of 95_test_vectors.md CK-1, CK-2 and CK-3, derived there from 41_checksum.md R60. -/
def Obligations.SampleChecksums : Prop :=
  crc16 [0, 0, 0, 0, 0, 0, 0, 0, 0] = 0xF00A#16 ∧
  crc16 [0xFF, 0xFF, 0xFF, 0xFF, 0xFF, 0xFF, 0xFF, 0xFF, 0xFF] = 0x800E#16 ∧
  crc16 [0x31, 0x32, 0x33, 0x34, 0x35, 0x36, 0x37, 0x38, 0x39] = 0x4B37#16

/-! ## Reset and the transaction -/

/-- 70_reset_and_hazards.md R94: after reset no request is outstanding and no response is pending, and the block is idle:
with nothing chosen by the outside the step changes nothing. That no sequence is loaded is the model's choice (log 10). -/
def Obligations.ResetLeavesTheBlockIdle : Prop :=
  State.reset.request = none ∧ State.reset.response = none ∧ State.reset.runs = [] ∧
  step State.reset = .next State.reset

/-- 70_reset_and_hazards.md R95: a request cut off by reset gets no response; its run is left without a result, and nothing
else changes. That a run with no request outstanding is untouched is the model's reading (log 11). -/
def Obligations.ResetAbandonsOnlyTheOutstandingRequest : Prop :=
  ∀ (s : State) (rest : List Move), s.sched = .reset :: rest →
    ∃ t, step s = .next t ∧ t.request = none ∧ t.response = none ∧ t.sched = rest ∧
      t.runs.length = s.runs.length ∧
      (∀ n c, s.runs[n]? = some c → s.issuer = .run n →
        ∃ c', t.runs[n]? = some c' ∧ c'.phase = .abandoned ∧ c'.inputs = c.inputs ∧ c'.body = c.body ∧
          c'.env = c.env ∧ c'.k = c.k) ∧
      (∀ n, s.issuer ≠ .run n → t.runs[n]? = s.runs[n]?)

/-- 70_reset_and_hazards.md R96: whatever reset cut off, the first request after it is answered with its operation's response,
with nothing done in between, and as a later request it is answered with the same word. -/
def Obligations.RequestsAfterResetAreAnsweredAlike : Prop :=
  ∀ (s : State) (w : ReqWord) (i : Instr) (rest : List Move), decode w = .ok i →
    s.sched = .reset :: .request w :: .block :: .request w :: .block :: rest →
    ∃ t t' : State, Host.Core.run core 3 s = .next t ∧ t.response = some { issuer := .outside, word := (responseOf i).pack } ∧
      Host.Core.run core 2 t = .next t' ∧ t'.response = t.response ∧ t'.sched = rest

/-- 30_encoding.md R50: an outstanding request stays outstanding until it is answered, with the response of its operation and
to its issuer, or a reset takes it with no response; and no response arises without a request. -/
def Obligations.EachRequestGetsOneResponseUnlessReset : Prop :=
  (∀ (s t : State) (o : Outstanding), s.request = some o → step s = .next t →
    (t.request = some o ∧ t.response = s.response) ∨
    (t.request = none ∧ ∃ i, decode o.word = .ok i ∧
      t.response = some { issuer := o.issuer, word := (responseOf i).pack }) ∨
    (t.request = none ∧ t.response = none ∧ ∃ rest, s.sched = .reset :: rest)) ∧
  (∀ s t : State, s.request = none → step s = .next t → t.response = s.response ∨ t.response = none)

/-- A request waits for the block: with a request outstanding, an operation statement issues nothing (30_encoding.md R50);
that the host's move is then used up is the model's choice (log 6). -/
def Obligations.BusyBlockMakesAHostWait : Prop :=
  ∀ (s : State) (n : Nat) (rest : List Move) (c : Run) (st : Stmt) (i : Instr) (o : Outstanding),
    s.sched = .run n :: rest → s.runs[n]? = some c → c.phase = .ready → c.body[c.k]? = some st →
    st.instr? c.env = some i → s.request = some o → step s = .next { s with sched := rest }

/-! ## The hosts and their sequences -/

/-- 44_sequences.md R74 and R75: a sequence that breaks a condition of R74 is refused and never runs; one that meets them all
begins with `env = inputs` and `k = 0`; either way no request is issued and no other run is touched. That the machine goes on
with an ill-formed sequence in the phase `refused` is the model's choice (log 13), and that the input names are to be distinct
is its reading of `env` as a mapping (log 14). -/
def Obligations.SequencesAreCheckedBeforeTheyRun : Prop :=
  ∀ (s : State) (n : Nat) (rest : List Move) (c : Run), s.sched = .run n :: rest → s.runs[n]? = some c →
    c.phase = .starting →
    ∃ t c', step s = .next t ∧ t.request = s.request ∧ t.response = s.response ∧ t.sched = rest ∧
      t.runs = s.runs.set n c' ∧ c'.inputs = c.inputs ∧ c'.body = c.body ∧
      (¬ SequenceRules (c.inputs.map Prod.fst) c.body → c'.phase = .refused ∧ c'.env = c.env ∧ c'.k = c.k) ∧
      (SequenceRules (c.inputs.map Prod.fst) c.body →
        c'.phase = .ready ∧ c'.k = 0 ∧ c'.env = c.inputs.map fun p => (p.1, Val.num p.2))

/-- 44_sequences.md R75: the host of a run issues the request word of its statement, with unused fields 0, and waits. -/
def Obligations.HostIssuesTheRequestOfItsStatement : Prop :=
  ∀ (s : State) (n : Nat) (rest : List Move) (c : Run) (st : Stmt) (i : Instr),
    s.sched = .run n :: rest → s.runs[n]? = some c → c.phase = .ready → c.body[c.k]? = some st →
    st.instr? c.env = some i → s.request = none →
    ∃ t, step s = .next t ∧ t.request = some { issuer := .run n, word := encode i } ∧ t.sched = rest ∧
      t.runs = s.runs.set n { c with phase := .waiting } ∧ decode (encode i) = .ok i

/-- 44_sequences.md R75: the response to WRITE_VALUE, CHECKSUM or PACKETIZE is bound to the statement's destination, and the
run goes on to the next statement; the transaction and the other runs are untouched. -/
def Obligations.HostBindsTheResponse : Prop :=
  ∀ (s : State) (n : Nat) (rest : List Move) (c : Run) (st : Stmt) (i : Instr) (d : Ident) (v : Val),
    s.sched = .run n :: rest → s.runs[n]? = some c → c.phase = .received (responseOf i).pack →
    c.body[c.k]? = some st → st.instr? c.env = some i →
    ((∃ t x bs value, st = .writeValue d t x ∧ i = .writeValue bs value ∧ v = .template (injectValue bs value)) ∨
     (∃ t bs, st = .checksum d t ∧ i = .checksum bs ∧ v = .checksum (checksumOf bs)) ∨
     (∃ t bs, st = .packetize d t ∧ i = .packetize bs ∧ v = .frame (bs ++ checksumOf bs))) →
    step s = .next { s with
      sched := rest, runs := s.runs.set n { c with env := (d, v) :: c.env, k := c.k + 1, phase := .ready } }

/-- 44_sequences.md R76: a RANGE response with status 1 ends the run at once with the error of that response; one with
status 0 lets it go on. Nothing is issued, `env` stays, and no other run is touched. -/
def Obligations.FailedGuardEndsTheSequence : Prop :=
  ∀ (s : State) (n : Nat) (rest : List Move) (c : Run) (v a b : NumOperand) (r : RspWord),
    s.sched = .run n :: rest → s.runs[n]? = some c → c.phase = .received r → c.body[c.k]? = some (.range v a b) →
    (r.getLsbD 0 = true → step s = .next { s with
      sched := rest,
      runs := s.runs.set n { c with phase := .finished (.invalidRange (r.extractLsb' 96 16) (r.extractLsb' 112 16)) } }) ∧
    (r.getLsbD 0 = false → step s = .next { s with
      sched := rest, runs := s.runs.set n { c with k := c.k + 1, phase := .ready } })

/-- 44_sequences.md R77, case 1: `RETURN x` ends the run with the value bound to `x`; it issues no request. -/
def Obligations.ReturnEndsWithTheBoundValue : Prop :=
  ∀ (s : State) (n : Nat) (rest : List Move) (c : Run) (x : Ident) (v : Val),
    s.sched = .run n :: rest → s.runs[n]? = some c → c.phase = .ready → c.body[c.k]? = some (.ret x) →
    lookup c.env x = some v →
    step s = .next { s with sched := rest, runs := s.runs.set n { c with phase := .finished (.ok v) } }

/-- 44_sequences.md R76 and R77: a run that is over makes no move, and no step changes it but its host running it again. That a
refused sequence is a run in a phase of its own is the model's choice (log 13). -/
def Obligations.EndedRunsIssueNothing : Prop :=
  ∀ (s t : State) (n : Nat) (c : Run), s.Inv → s.runs[n]? = some c → c.phase.isOver = true → step s = .next t →
    (∀ rest, s.sched = .run n :: rest → t = { s with sched := rest }) ∧
    ((∀ rest, s.sched ≠ .restart n :: rest) → t.runs[n]? = some c)

/-- 44_sequences.md R77 and 70_reset_and_hazards.md R95: an abandoned run, run again, starts from `k = 0` with its inputs; that
a run with a result may be run again too is the model's reading (log 12). -/
def Obligations.AbandonedRunsMayRunAgain : Prop :=
  ∀ (s : State) (n : Nat) (rest : List Move) (c : Run), s.sched = .restart n :: rest → s.runs[n]? = some c →
    (c.phase = .abandoned ∨ ∃ res, c.phase = .finished res) →
    step s = .next { s with
      sched := rest,
      runs := s.runs.set n { inputs := c.inputs, body := c.body, env := [], k := 0, phase := .starting } }

/-- No step changes the inputs or the body of a run, or removes a run; a new one only joins at the end, when a host loads
it. -/
def Obligations.SequencesStayAsLoaded : Prop :=
  ∀ (s t : State) (n : Nat) (c : Run), step s = .next t → s.runs[n]? = some c →
    (∃ c', t.runs[n]? = some c' ∧ c'.inputs = c.inputs ∧ c'.body = c.body) ∧
    (t.runs.length = s.runs.length ∨
      ∃ inputs body rest, s.sched = .load inputs body :: rest ∧
        t.runs = s.runs ++ [{ inputs := inputs, body := body, env := [], k := 0, phase := .starting }])

/-- 44_sequences.md R77: a well-formed sequence has no way to end but a result. -/
def Obligations.WellFormedSequencesDetermineAResult : Prop :=
  ∀ (inputs : List (Ident × Half)) (body : List Stmt), sequenceWellFormed (inputs.map Prod.fst) body = true →
    ∃ res, sequenceResult inputs body = some res

/-- The invariant holds right after reset. -/
def Obligations.ResetStateMeetsTheInvariant : Prop := State.reset.Inv

/-- Every step keeps the invariant: every run is where its sequence says it should be, whatever the other hosts, the outside
requesters and the reset do (20_memory.md R35, 60_exceptions.md R91). -/
def Obligations.EveryStepKeepsTheInvariant : Prop :=
  ∀ s t : State, s.Inv → step s = .next t → t.Inv

/-- 60_exceptions.md R91, 20_memory.md R35 and 44_sequences.md R81: in any number of steps, under any schedule, a run that
ends with a result ends with the one its own inputs and body determine. -/
def Obligations.InterleavingNeverChangesAResult : Prop :=
  ∀ (m : Nat) (s t : State), s.Inv → Host.Core.run core m s = .next t →
    ∀ (n : Nat) (c : Run) (res : Result), t.runs[n]? = some c → c.phase = .finished res → sequenceResult c.inputs c.body = some res

/-- 44_sequences.md R78: once a guard of the sequence fails on the inputs, the run never gets past it: no frame is bound, no
PACKETIZE is issued and the run does not return Ok, when no PACKETIZE stands before the guard. -/
def Obligations.PipelineFailsClosed : Prop :=
  ∀ (s : State) (n g : Nat) (c : Run) (v a b : NumOperand) (value max : Half), s.Inv → s.runs[n]? = some c →
    c.wellFormed = true → c.body[g]? = some (.range v a b) →
    v.eval (inputEnv c.inputs) = some value → b.eval (inputEnv c.inputs) = some max → max.toNat < value.toNat →
    (∀ j d t, j < g → c.body[j]? ≠ some (.packetize d t)) →
    c.k ≤ g ∧
    (∀ x bs, lookup c.env x ≠ some (.frame bs)) ∧
    (∀ w tmpl, s.request = some { issuer := .run n, word := w } → decode w ≠ .ok (.packetize tmpl)) ∧
    (∀ val, c.phase ≠ .finished (.ok val))

/-- 60_exceptions.md R82 and 70_reset_and_hazards.md R99, duty 5: the machine stops only where a requester outside any sequence
has presented a reserved request; no run ever brings it to a stop. That such a request stops the whole machine is the model's
choice (log 7). -/
def Obligations.OnlyOutsideRequestsAreRefused : Prop :=
  ∀ (s : State), s.Inv →
    (∃ t, step s = .next t) ∨
    (∃ o e, s.request = some o ∧ o.issuer = .outside ∧ decode o.word = .error e ∧ step s = .refused (refusalOf e))

/-- 44_sequences.md R77 and 70_reset_and_hazards.md R100: under the order the model takes when the outside chooses nothing
(log 4), every run ends: within three steps a statement and one more, all runs are over. -/
def Obligations.EveryRunEndsUnderTheDefaultOrder : Prop :=
  ∀ s : State, s.Inv → s.sched = [] → (∀ w, s.request ≠ some { issuer := .outside, word := w }) →
    ∃ (m : Nat) (t : State), m ≤ (s.runs.map fun c => 3 * c.body.length + 1).sum ∧ Host.Core.run core m s = .next t ∧
      (∀ (n : Nat) (c : Run), t.runs[n]? = some c → c.phase.isOver = true) ∧ t.runs.length = s.runs.length

/-! ## The assembler -/

/-- 30_encoding.md R51: a literal out of range is an assembly error and no request; one in range is taken as it is, and so is
a template literal of exactly nine byte literals. -/
def Obligations.LiteralsAreCheckedByTheAssembler : Prop :=
  (∀ n : Nat, (n ≤ 65535 → ∃ x : Half, (SrcOperand.lit n).toNum = .ok (.lit x) ∧ x.toNat = n) ∧
    (65535 < n → (SrcOperand.lit n).toNum = .error .literalRange)) ∧
  (∀ bs : List Nat,
    (bs.length = 9 → (∀ b ∈ bs, b ≤ 255) →
      ∃ t : List Byte, (SrcOperand.bytes bs).toTmpl = .ok (.lit t) ∧ t.map BitVec.toNat = bs) ∧
    (bs.length = 9 → (∃ b ∈ bs, 255 < b) → (SrcOperand.bytes bs).toTmpl = .error .literalRange) ∧
    (bs.length ≠ 9 → (SrcOperand.bytes bs).toTmpl = .error .templateLiteral))

/-- 30_encoding.md R53: `FRAME d, t, v` comes to PACKETIZE of WRITE_VALUE, `FRAME d, t` to PACKETIZE, for every template
literal and every value; neither includes a guard. -/
def Obligations.FramePacketizesTheWrittenValue : Prop :=
  ∀ (bs : List Nat) (d v : String) (x : Half), bs.length = 9 → (∀ b ∈ bs, b ≤ 255) → d ≠ v →
    (∃ body, assemble [.frameValue d (.bytes bs) (.name v), .ret d] = .ok body ∧
      sequenceWellFormed [.user v] body = true ∧
      sequenceResult [(.user v, x)] body = some (.ok (.frame (frameOf (injectValue (bs.map (BitVec.ofNat 8)) x))))) ∧
    (∃ body, assemble [.frame d (.bytes bs), .ret d] = .ok body ∧ sequenceWellFormed [.user v] body = true ∧
      sequenceResult [(.user v, x)] body = some (.ok (.frame (frameOf (bs.map (BitVec.ofNat 8))))))

/-- 44_sequences.md R79 with 30_encoding.md R52: the canonical guarded pipeline, with explicit bounds and with a maximum only:
it frames the value when it is at most the maximum, and otherwise ends with the bounds, whatever the minimum. -/
def Obligations.GuardedPipelineFramesOrReportsBounds : Prop :=
  ∀ (bs : List Nat) (lo hi : Nat) (x : Half), bs.length = 9 → (∀ b ∈ bs, b ≤ 255) → lo ≤ 65535 → hi ≤ 65535 →
    (∃ body, assemble [.range (.name "v") (.lit lo) (.lit hi), .frameValue "f" (.bytes bs) (.name "v"), .ret "f"] = .ok body ∧
      sequenceWellFormed [.user "v"] body = true ∧
      sequenceResult [(.user "v", x)] body =
        if x.toNat ≤ hi then some (.ok (.frame (frameOf (injectValue (bs.map (BitVec.ofNat 8)) x))))
        else some (.invalidRange (BitVec.ofNat 16 lo) (BitVec.ofNat 16 hi))) ∧
    assemble [.rangeMax (.name "v") (.lit hi), .frameValue "f" (.bytes bs) (.name "v"), .ret "f"] =
      assemble [.range (.name "v") (.lit 0) (.lit hi), .frameValue "f" (.bytes bs) (.name "v"), .ret "f"]

/-! ## The checks of a sequence -/

/-- 44_sequences.md R74: the check that walks a body passes exactly the sequences that meet the conditions of the rule: every
name read is bound before, every `<dst>` is fresh, every operand has the kind its position needs, and `RETURN` is the last
statement and no other. That the input names are to be distinct and a template literal is to be nine bytes are the model's
readings (logs 14 and 9). -/
def Obligations.WellFormedMeansTheConditionsOfTheRule : Prop :=
  ∀ (inputs : List Ident) (body : List Stmt), sequenceWellFormed inputs body = true ↔ SequenceRules inputs body
end

