-- ==== Sys2Proof/Laws/Pack.lean ====
section
/-! SUPPORT. The bits of packed words: what each bit of a request word and of a response word is, and that unpacking a field
gives back what was packed. -/
namespace Sys2Proof

@[simp] theorem isTemplate_iff (t : List Byte) : IsTemplate t ↔ t.length = 9 := Iff.rfl

/-- The bits of bytes laid side by side. -/
theorem getLsbD_bytesWord (bs : List Byte) (j : Nat) (h : j < 128) :
    (bytesWord bs).getLsbD j = ((bs[j / 8]?).getD 0#8).getLsbD (j % 8) := by
  induction bs generalizing j with
  | nil => simp [bytesWord]
  | cons b bs ih =>
    simp only [bytesWord, BitVec.getLsbD_or, BitVec.getLsbD_setWidth, BitVec.getLsbD_shiftLeft]
    by_cases hj : j < 8
    · have h0 : j / 8 = 0 := by omega
      have h1 : j % 8 = j := by omega
      simp [h, hj, h0, h1]
    · have h0 : j / 8 = (j - 8) / 8 + 1 := by omega
      have h1 : j % 8 = (j - 8) % 8 := by omega
      rw [ih (j - 8) (by omega), h0, h1, BitVec.getLsbD_of_ge b j (by omega)]
      simp [h, hj]

/-- The bits of a byte field. -/
theorem getLsbD_byteField (w : BitVec 128) (i j : Nat) :
    (byteField w i).getLsbD j = (decide (j < 8) && w.getLsbD (8 * i + 8 + j)) := by
  simp [byteField]

/-- The bits of a 16-bit field. -/
theorem getLsbD_halfField (w : BitVec 128) (lo j : Nat) :
    (halfField w lo).getLsbD j = (decide (j < 16) && w.getLsbD (lo + j)) := by
  simp [halfField]

@[simp] theorem length_byteFields (n : Nat) (w : BitVec 128) : (byteFields n w).length = n := by simp [byteFields]

/-- The decoder's template is a Command Template (10_state.md R20). -/
theorem isTemplate_tmplField (w : ReqWord) : IsTemplate (tmplField w) := length_byteFields Config.templateLen w

/-- The bytes of a byte field, by index. -/
theorem getElem?_byteFields (n : Nat) (w : BitVec 128) (i : Nat) :
    (byteFields n w)[i]? = if i < n then some (byteField w i) else none := by
  by_cases h : i < n <;> simp [byteFields, h]

/-- The bits of a field laid into a word `k` bits up. -/
theorem getLsbD_field {w : Nat} (x : BitVec w) (k j : Nat) (h : j < 128) :
    (x.setWidth 128 <<< k).getLsbD j = (decide (k ≤ j) && x.getLsbD (j - k)) := by
  by_cases hj : j < k
  · have : ¬ k ≤ j := by omega
    simp [h, hj, this]
  · have h1 : k ≤ j := by omega
    simp [h, hj, h1]

/-- The bits of a byte list laid into a word 8 bits up, as template and data bytes are. -/
theorem getLsbD_bytesWord_shift (bs : List Byte) (j : Nat) (h : j < 128) :
    (bytesWord bs <<< 8).getLsbD j = (decide (8 ≤ j) && ((bs[(j - 8) / 8]?).getD 0#8).getLsbD ((j - 8) % 8)) := by
  rw [BitVec.getLsbD_shiftLeft]
  by_cases hj : j < 8
  · have : ¬ 8 ≤ j := by omega
    simp [hj, this]
  · have h1 : 8 ≤ j := by omega
    simp [h, hj, h1, getLsbD_bytesWord bs (j - 8) (by omega)]

/-- The bits of a packed request word (30_encoding.md R40). -/
theorem getLsbD_packRequest (op : BitVec 3) (t : List Byte) (v lo hi : Half) (j : Nat) (h : j < 128) :
    (packRequest op t v lo hi).getLsbD j =
      (op.getLsbD j || (decide (8 ≤ j) && ((t[(j - 8) / 8]?).getD 0#8).getLsbD ((j - 8) % 8)) ||
        (decide (80 ≤ j) && v.getLsbD (j - 80)) || (decide (96 ≤ j) && lo.getLsbD (j - 96)) ||
        (decide (112 ≤ j) && hi.getLsbD (j - 112))) := by
  simp only [packRequest, BitVec.getLsbD_or, getLsbD_field _ _ _ h, getLsbD_bytesWord_shift _ _ h]
  simp [h]

/-- The operation code of a packed request. -/
@[simp] theorem opField_packRequest (op : BitVec 3) (t : List Byte) (v lo hi : Half) :
    opField (packRequest op t v lo hi) = op := by
  apply BitVec.eq_of_getLsbD_eq
  intro j hj
  rw [opField, BitVec.getLsbD_extractLsb', getLsbD_packRequest _ _ _ _ _ _ (by omega)]
  have h1 : ¬ 8 ≤ j := by omega
  have h2 : ¬ 80 ≤ j := by omega
  have h3 : ¬ 96 ≤ j := by omega
  have h4 : ¬ 112 ≤ j := by omega
  simp [hj, h1, h2, h3, h4]

/-- The reserved bits of a packed request are 0. -/
@[simp] theorem reservedField_packRequest (op : BitVec 3) (t : List Byte) (v lo hi : Half) :
    reservedField (packRequest op t v lo hi) = 0#5 := by
  apply BitVec.eq_of_getLsbD_eq
  intro j hj
  rw [reservedField, BitVec.getLsbD_extractLsb', getLsbD_packRequest _ _ _ _ _ _ (by omega),
    BitVec.getLsbD_of_ge op _ (by omega)]
  have h1 : ¬ 8 ≤ 3 + j := by omega
  have h2 : ¬ 80 ≤ 3 + j := by omega
  have h3 : ¬ 96 ≤ 3 + j := by omega
  have h4 : ¬ 112 ≤ 3 + j := by omega
  simp [h1, h2, h3, h4]

/-- A template byte of a packed request. -/
theorem byteField_packRequest (op : BitVec 3) (t : List Byte) (v lo hi : Half) (i : Nat) (h : i < 9) :
    byteField (packRequest op t v lo hi) i = (t[i]?).getD 0#8 := by
  apply BitVec.eq_of_getLsbD_eq
  intro j hj
  rw [getLsbD_byteField, getLsbD_packRequest _ _ _ _ _ _ (by omega), BitVec.getLsbD_of_ge op _ (by omega)]
  have h1 : (8 * i + 8 + j - 8) / 8 = i := by omega
  have h2 : (8 * i + 8 + j - 8) % 8 = j := by omega
  have h3 : 8 ≤ 8 * i + 8 + j := by omega
  have h4 : ¬ 80 ≤ 8 * i + 8 + j := by omega
  have h5 : ¬ 96 ≤ 8 * i + 8 + j := by omega
  have h6 : ¬ 112 ≤ 8 * i + 8 + j := by omega
  simp [hj, h1, h2, h3, h4, h5, h6]

/-- Nine packed bytes read back as they were. -/
theorem byteFields_of_getD (n : Nat) (w : BitVec 128) (t : List Byte) (ht : t.length = n)
    (h : ∀ i, i < n → byteField w i = (t[i]?).getD 0#8) : byteFields n w = t := by
  apply List.ext_getElem?
  intro i
  rw [getElem?_byteFields]
  by_cases hi : i < n
  · rw [if_pos hi, h i hi, List.getElem?_eq_getElem (by omega), Option.getD_some]
  · rw [if_neg hi, List.getElem?_eq_none (by omega)]

/-- The template of a packed request (30_encoding.md R40). -/
theorem tmplField_packRequest (op : BitVec 3) (t : List Byte) (v lo hi : Half) (ht : IsTemplate t) :
    tmplField (packRequest op t v lo hi) = t :=
  byteFields_of_getD _ _ _ ht fun i h => byteField_packRequest op t v lo hi i h

/-- A template of at most nine bytes leaves the bits from 80 up alone. -/
theorem getD_getLsbD_high (t : List Byte) (j : Nat) (ht : 8 * t.length + 8 ≤ j) :
    ((t[(j - 8) / 8]?).getD 0#8).getLsbD ((j - 8) % 8) = false := by
  rw [List.getElem?_eq_none (by omega)]
  simp

/-- The value of a packed request. -/
theorem valueField_packRequest (op : BitVec 3) (t : List Byte) (v lo hi : Half) (ht : t.length ≤ 9) :
    valueField (packRequest op t v lo hi) = v := by
  apply BitVec.eq_of_getLsbD_eq
  intro j hj
  rw [valueField, getLsbD_halfField, getLsbD_packRequest _ _ _ _ _ _ (by omega), BitVec.getLsbD_of_ge op _ (by omega),
    getD_getLsbD_high t _ (by omega)]
  have h1 : 80 + j - 80 = j := by omega
  have h5 : ¬ 96 ≤ 80 + j := by omega
  have h6 : ¬ 112 ≤ 80 + j := by omega
  simp [hj, h1, h5, h6]

/-- The lower bound of a packed request. -/
theorem minField_packRequest (op : BitVec 3) (t : List Byte) (v lo hi : Half) (ht : t.length ≤ 9) :
    minField (packRequest op t v lo hi) = lo := by
  apply BitVec.eq_of_getLsbD_eq
  intro j hj
  rw [minField, getLsbD_halfField, getLsbD_packRequest _ _ _ _ _ _ (by omega), BitVec.getLsbD_of_ge op _ (by omega),
    getD_getLsbD_high t _ (by omega), BitVec.getLsbD_of_ge v _ (by omega)]
  have h1 : 96 + j - 96 = j := by omega
  have h6 : ¬ 112 ≤ 96 + j := by omega
  simp [hj, h1, h6]

/-- The upper bound of a packed request. -/
theorem maxField_packRequest (op : BitVec 3) (t : List Byte) (v lo hi : Half) (ht : t.length ≤ 9) :
    maxField (packRequest op t v lo hi) = hi := by
  apply BitVec.eq_of_getLsbD_eq
  intro j hj
  rw [maxField, getLsbD_halfField, getLsbD_packRequest _ _ _ _ _ _ (by omega), BitVec.getLsbD_of_ge op _ (by omega),
    getD_getLsbD_high t _ (by omega), BitVec.getLsbD_of_ge v _ (by omega), BitVec.getLsbD_of_ge lo _ (by omega)]
  have h1 : 112 + j - 112 = j := by omega
  simp [hj, h1]

end Sys2Proof

namespace Sys2Proof.Machine

/-- The bits of a packed response word (30_encoding.md R44, R47). -/
theorem getLsbD_pack (r : Response) (j : Nat) (h : j < 128) :
    r.pack.getLsbD j =
      (r.status.code.getLsbD j || (decide (8 ≤ j) && ((r.data[(j - 8) / 8]?).getD 0#8).getLsbD ((j - 8) % 8)) ||
        (decide (96 ≤ j) && r.start.getLsbD (j - 96)) || (decide (112 ≤ j) && r.stop.getLsbD (j - 112))) := by
  simp only [Response.pack, BitVec.getLsbD_or, getLsbD_field _ _ _ h, getLsbD_bytesWord_shift _ _ h]
  simp [h]

/-- The status bit of a packed response (30_encoding.md R44, R45). -/
@[simp] theorem rspStatus_pack (r : Response) : rspStatus r.pack = decide (r.status = .invalidRange) := by
  rw [rspStatus, getLsbD_pack r 0 (by omega)]
  cases r.status <;> simp [Status.code]

/-- A data byte of a packed response (30_encoding.md R44, R47). -/
theorem byteField_pack (r : Response) (i : Nat) (h : i < 11) : byteField r.pack i = (r.data[i]?).getD 0#8 := by
  apply BitVec.eq_of_getLsbD_eq
  intro j hj
  rw [getLsbD_byteField, getLsbD_pack r _ (by omega), BitVec.getLsbD_of_ge r.status.code _ (by omega)]
  have h1 : (8 * i + 8 + j - 8) / 8 = i := by omega
  have h2 : (8 * i + 8 + j - 8) % 8 = j := by omega
  have h3 : 8 ≤ 8 * i + 8 + j := by omega
  have h5 : ¬ 96 ≤ 8 * i + 8 + j := by omega
  have h6 : ¬ 112 ≤ 8 * i + 8 + j := by omega
  simp [hj, h1, h2, h3, h5, h6]

/-- The valid data bytes of a packed response (30_encoding.md R46). -/
theorem rspData_pack (n : Nat) (r : Response) (hn : n ≤ 11) (h : r.data.length = n) : rspData n r.pack = r.data :=
  byteFields_of_getD n _ _ h fun i hi => byteField_pack r i (by omega)

/-- The error payload of a packed response: `start`. -/
theorem rspStart_pack (r : Response) (h : r.data.length ≤ 11) : rspStart r.pack = r.start := by
  apply BitVec.eq_of_getLsbD_eq
  intro j hj
  rw [rspStart, getLsbD_halfField, getLsbD_pack r _ (by omega), BitVec.getLsbD_of_ge r.status.code _ (by omega),
    getD_getLsbD_high r.data _ (by omega)]
  have h1 : 96 + j - 96 = j := by omega
  have h6 : ¬ 112 ≤ 96 + j := by omega
  simp [hj, h1, h6]

/-- The error payload of a packed response: `end`. -/
theorem rspEnd_pack (r : Response) (h : r.data.length ≤ 11) : rspEnd r.pack = r.stop := by
  apply BitVec.eq_of_getLsbD_eq
  intro j hj
  rw [rspEnd, getLsbD_halfField, getLsbD_pack r _ (by omega), BitVec.getLsbD_of_ge r.status.code _ (by omega),
    getD_getLsbD_high r.data _ (by omega), BitVec.getLsbD_of_ge r.start _ (by omega)]
  have h1 : 112 + j - 112 = j := by omega
  simp [hj, h1]

end Sys2Proof.Machine
end

