-- ==== Sys2Proof/Laws/State.lean ====
section
/-! SUPPORT. One lemma per field per update of the state, so that no later proof unfolds a record update. -/
namespace Sys2Proof.Machine

section respond
variable (s : State) (r : RspWord)
@[simp] theorem respond_request : (s.respond r).request = none := rfl
@[simp] theorem respond_response : (s.respond r).response = some { issuer := s.issuer, word := r } := rfl
@[simp] theorem respond_runs : (s.respond r).runs = updateRun s.issuer (Run.deliver r) s.runs := rfl
@[simp] theorem respond_sched : (s.respond r).sched = s.sched := rfl
end respond

section issue
variable (s : State) (who : Requester) (w : ReqWord)
@[simp] theorem issue_request : (s.issue who w).request = some { issuer := who, word := w } := rfl
@[simp] theorem issue_response : (s.issue who w).response = none := rfl
@[simp] theorem issue_runs : (s.issue who w).runs = s.runs := rfl
@[simp] theorem issue_sched : (s.issue who w).sched = s.sched := rfl
end issue

section placeRequest
variable (s : State) (w : ReqWord)
@[simp] theorem placeRequest_request : (s.placeRequest w).request = some { issuer := .outside, word := w } := rfl
@[simp] theorem placeRequest_response : (s.placeRequest w).response = s.response := rfl
@[simp] theorem placeRequest_runs : (s.placeRequest w).runs = s.runs := rfl
@[simp] theorem placeRequest_sched : (s.placeRequest w).sched = .block :: s.sched := rfl
end placeRequest

section setRun
variable (s : State) (n : Nat) (c : Run)
@[simp] theorem setRun_request : (s.setRun n c).request = s.request := rfl
@[simp] theorem setRun_response : (s.setRun n c).response = s.response := rfl
@[simp] theorem setRun_runs : (s.setRun n c).runs = s.runs.set n c := rfl
@[simp] theorem setRun_sched : (s.setRun n c).sched = s.sched := rfl
end setRun

section takeReset
variable (s : State)
@[simp] theorem takeReset_request : s.takeReset.request = none := rfl
@[simp] theorem takeReset_response : s.takeReset.response = none := rfl
@[simp] theorem takeReset_sched : s.takeReset.sched = s.sched := rfl
theorem takeReset_runs : s.takeReset.runs = updateRun s.issuer Run.abandon s.runs := by
  cases h : s.request <;> simp [State.takeReset, State.issuer, updateRun, h]
end takeReset

section loadAndRestart
variable (s : State) (inputs : List (Ident × Half)) (body : List Stmt) (n : Nat)
@[simp] theorem load_request : (s.load inputs body).request = s.request := rfl
@[simp] theorem load_response : (s.load inputs body).response = s.response := rfl
@[simp] theorem load_runs : (s.load inputs body).runs = s.runs ++ [Run.fresh inputs body] := rfl
@[simp] theorem load_sched : (s.load inputs body).sched = s.sched := rfl
@[simp] theorem restart_request : (s.restart n).request = s.request := rfl
@[simp] theorem restart_response : (s.restart n).response = s.response := rfl
@[simp] theorem restart_runs : (s.restart n).runs = s.runs.modify n Run.again := rfl
@[simp] theorem restart_sched : (s.restart n).sched = s.sched := rfl
end loadAndRestart

section afterMove
variable (s : State)
@[simp] theorem afterMove_request : s.afterMove.request = s.request := rfl
@[simp] theorem afterMove_response : s.afterMove.response = s.response := rfl
@[simp] theorem afterMove_runs : s.afterMove.runs = s.runs := rfl
@[simp] theorem afterMove_sched : s.afterMove.sched = s.sched.tail := rfl
@[simp] theorem afterMove_issuer : s.afterMove.issuer = s.issuer := rfl
end afterMove

/-- The requester of an outstanding request. -/
theorem issuer_of_request {s : State} {o : Outstanding} (h : s.request = some o) : s.issuer = o.issuer := by
  simp [State.issuer, h]

section runUpdates
variable (c : Run) (r : RspWord) (res : Result) (d : Ident) (v : Val)
@[simp] theorem deliver_inputs : (c.deliver r).inputs = c.inputs := rfl
@[simp] theorem deliver_body : (c.deliver r).body = c.body := rfl
@[simp] theorem deliver_env : (c.deliver r).env = c.env := rfl
@[simp] theorem deliver_k : (c.deliver r).k = c.k := rfl
@[simp] theorem deliver_phase : (c.deliver r).phase = .received r := rfl
@[simp] theorem abandon_inputs : c.abandon.inputs = c.inputs := rfl
@[simp] theorem abandon_body : c.abandon.body = c.body := rfl
@[simp] theorem abandon_env : c.abandon.env = c.env := rfl
@[simp] theorem abandon_k : c.abandon.k = c.k := rfl
@[simp] theorem abandon_phase : c.abandon.phase = .abandoned := rfl
@[simp] theorem finish_inputs : (c.finish res).inputs = c.inputs := rfl
@[simp] theorem finish_body : (c.finish res).body = c.body := rfl
@[simp] theorem finish_env : (c.finish res).env = c.env := rfl
@[simp] theorem finish_k : (c.finish res).k = c.k := rfl
@[simp] theorem finish_phase : (c.finish res).phase = .finished res := rfl
@[simp] theorem refuse_inputs : c.refuse.inputs = c.inputs := rfl
@[simp] theorem refuse_body : c.refuse.body = c.body := rfl
@[simp] theorem refuse_env : c.refuse.env = c.env := rfl
@[simp] theorem refuse_k : c.refuse.k = c.k := rfl
@[simp] theorem refuse_phase : c.refuse.phase = .refused := rfl
@[simp] theorem bind_inputs : (c.bind d v).inputs = c.inputs := rfl
@[simp] theorem bind_body : (c.bind d v).body = c.body := rfl
@[simp] theorem bind_env : (c.bind d v).env = (d, v) :: c.env := rfl
@[simp] theorem bind_k : (c.bind d v).k = c.k + 1 := rfl
@[simp] theorem bind_phase : (c.bind d v).phase = .ready := rfl
end runUpdates

/-- Updating one requester's run leaves the number of runs. -/
@[simp] theorem length_updateRun (who : Requester) (f : Run → Run) (runs : List Run) :
    (updateRun who f runs).length = runs.length := by cases who <;> simp [updateRun]

/-- The run that is updated. -/
theorem getElem?_updateRun_self (n : Nat) (f : Run → Run) (runs : List Run) :
    (updateRun (.run n) f runs)[n]? = (runs[n]?).map f := by simp [updateRun]

/-- Every other run is left alone. -/
theorem getElem?_updateRun_of_ne (who : Requester) (m : Nat) (f : Run → Run) (runs : List Run) (h : who ≠ .run m) :
    (updateRun who f runs)[m]? = runs[m]? := by
  cases who with
  | outside => rfl
  | run n =>
    have hn : n ≠ m := fun e => h (by rw [e])
    simp [updateRun, hn]

end Sys2Proof.Machine
end

