-- ==== Sys2Proof/Laws/Exec.lean ====
section
/-! SUPPORT. What the operations do, said once: the response each of them gives, when an operation answers a next state, and
what the decoder and the issuing of a request have to do with each other. -/
namespace Sys2Proof.Machine

@[simp] theorem length_checksumBytes (c : Half) : (checksumBytes c).length = 2 := rfl
@[simp] theorem length_checksumOf (t : List Byte) : (checksumOf t).length = 2 := rfl
@[simp] theorem length_injectValue (t : List Byte) (v : Half) : (injectValue t v).length = t.length := by
  simp [injectValue]
@[simp] theorem length_frameOf (t : List Byte) : (frameOf t).length = t.length + 2 := by simp [frameOf]

@[simp] theorem okResponse_status (d : List Byte) : (okResponse d).status = .ok := rfl
@[simp] theorem okResponse_data (d : List Byte) : (okResponse d).data = d := rfl
@[simp] theorem okResponse_start (d : List Byte) : (okResponse d).start = 0#16 := rfl
@[simp] theorem okResponse_stop (d : List Byte) : (okResponse d).stop = 0#16 := rfl
@[simp] theorem raiseInvalidRange_status (a b : Half) : (raiseInvalidRange a b).status = .invalidRange := rfl
@[simp] theorem raiseInvalidRange_data (a b : Half) : (raiseInvalidRange a b).data = [] := rfl
@[simp] theorem raiseInvalidRange_start (a b : Half) : (raiseInvalidRange a b).start = a := rfl
@[simp] theorem raiseInvalidRange_stop (a b : Half) : (raiseInvalidRange a b).stop = b := rfl

/-- A guard that fails reports its bounds (43_range_guard.md R69). -/
theorem rangeResponse_of_lt {v lo hi : Half} (h : hi < v) : rangeResponse v lo hi = raiseInvalidRange lo hi := by
  simp [rangeResponse, rangeStatus, h]

/-- A guard that succeeds reports nothing (43_range_guard.md R69). -/
theorem rangeResponse_of_not_lt {v lo hi : Half} (h : ¬ hi < v) : rangeResponse v lo hi = okResponse [] := by
  simp only [rangeResponse, rangeStatus, if_neg h]

/-- No response has more data bytes than a frame. -/
theorem length_data_responseOf (i : Instr) (h : i.wellFormed = true) : (responseOf i).data.length ≤ 11 := by
  cases i with
  | writeValue t v => simp [Instr.wellFormed] at h; simp [responseOf, writeValueResponse, h]
  | checksum t => simp [responseOf, checksumResponse]
  | packetize t => simp [Instr.wellFormed] at h; simp [responseOf, packetizeResponse, h]
  | range v lo hi =>
    by_cases hv : hi < v
    · simp [responseOf, rangeResponse_of_lt hv]
    · simp [responseOf, rangeResponse_of_not_lt hv]

/-- An operation on a template answers. -/
theorem withTemplate_of_isTemplate {t : List Byte} (h : IsTemplate t) (s : State) (r : Response) :
    withTemplate t s r = .next (s.respond r.pack) := if_pos h

/-- A list of another length is refused (20_memory.md R33). -/
theorem withTemplate_of_not_isTemplate {t : List Byte} (h : ¬ IsTemplate t) (s : State) (r : Response) :
    withTemplate t s r = .refused .templateLength := if_neg h

/-- Every well-formed instruction answers its response and changes nothing else. -/
theorem exec_of_wellFormed (i : Instr) (s : State) (h : i.wellFormed = true) :
    exec i s = .next (s.respond (responseOf i).pack) := by
  cases i with
  | writeValue t v => exact withTemplate_of_isTemplate (of_decide_eq_true h) s _
  | checksum t => exact withTemplate_of_isTemplate (of_decide_eq_true h) s _
  | packetize t => exact withTemplate_of_isTemplate (of_decide_eq_true h) s _
  | range v lo hi => rfl

/-- An instruction that is not well formed is refused. -/
theorem exec_of_not_wellFormed (i : Instr) (s : State) (h : i.wellFormed = false) :
    exec i s = .refused .templateLength := by
  cases i with
  | writeValue t v => exact withTemplate_of_not_isTemplate (of_decide_eq_false h) s _
  | checksum t => exact withTemplate_of_not_isTemplate (of_decide_eq_false h) s _
  | packetize t => exact withTemplate_of_not_isTemplate (of_decide_eq_false h) s _
  | range v lo hi => cases h

/-- All that `exec` can do when it answers a next state. -/
theorem exec_next {i : Instr} {s t : State} (h : exec i s = .next t) :
    i.wellFormed = true ∧ t = s.respond (responseOf i).pack := by
  cases hw : i.wellFormed with
  | false => rw [exec_of_not_wellFormed i s hw] at h; cases h
  | true => rw [exec_of_wellFormed i s hw] at h; injection h with h; exact ⟨rfl, h.symm⟩

/-- What the decoder reads has nine template bytes (10_state.md R20). -/
theorem wellFormed_of_decode {w : ReqWord} {i : Instr} (h : decode w = .ok i) : i.wellFormed = true := by
  unfold decode at h
  split at h
  · cases h
  · split at h <;> cases h
    · exact decide_eq_true (isTemplate_tmplField w)
    · exact decide_eq_true (isTemplate_tmplField w)
    · exact decide_eq_true (isTemplate_tmplField w)
    · rfl

/-- The operation a statement issues is well formed. -/
theorem wellFormed_of_instr? {st : Stmt} {env : Env} {i : Instr} (h : st.instr? env = some i) : i.wellFormed = true := by
  have ht : ∀ {t : TmplOperand} {bs : List Byte}, t.eval env = some bs → IsTemplate bs := by
    intro t bs h
    unfold TmplOperand.eval at h
    split at h
    · split at h
      · rename_i hb; cases h; exact hb
      · cases h
    · split at h
      · split at h
        · rename_i hb; cases h; exact hb
        · cases h
      · cases h
  cases st with
  | writeValue d t v =>
    simp only [Stmt.instr?] at h
    split at h
    · rename_i he _; cases h; exact decide_eq_true (ht he)
    · cases h
  | checksum d t =>
    simp only [Stmt.instr?, Option.map_eq_some_iff] at h
    obtain ⟨bs, he, rfl⟩ := h
    exact decide_eq_true (ht he)
  | packetize d t =>
    simp only [Stmt.instr?, Option.map_eq_some_iff] at h
    obtain ⟨bs, he, rfl⟩ := h
    exact decide_eq_true (ht he)
  | range v a b =>
    simp only [Stmt.instr?] at h
    split at h
    · cases h; rfl
    · cases h
  | ret x => cases h

end Sys2Proof.Machine
end

