-- ==== Sys2Proof/Laws/Bytes.lean ====
section
/-! SUPPORT. The two bytes of a 16-bit number, what injection puts where, fields of a word read bit by bit, and the one
bit iteration of the checksum. -/
namespace Sys2Proof.Machine

/-- A field of a word is known by its bits. -/
theorem extractLsb'_eq_of_bits {lo len : Nat} {w : BitVec 128} {x : BitVec len}
    (h : ∀ j, j < len → w.getLsbD (lo + j) = x.getLsbD j) : w.extractLsb' lo len = x := by
  apply BitVec.eq_of_getLsbD_eq
  intro j hj
  simp [hj, h j hj]

/-- A bit of a field is a bit of the word. -/
theorem getLsbD_extractLsb'_of_lt (w : BitVec 128) (lo len j : Nat) (hj : j < len) :
    (w.extractLsb' lo len).getLsbD j = w.getLsbD (lo + j) := by simp [hj]

/-- The low byte of a request selects the operation only when it is the operation code alone (30_encoding.md R40). -/
theorem fields_of_lowByte (w : ReqWord) (c : Nat) (hc : c < 8) (h : w.extractLsb' 0 8 = BitVec.ofNat 8 c) :
    reservedField w = 0#5 ∧ (opField w).toNat = c := by
  have hn : w.toNat % 256 = c := by
    have := congrArg BitVec.toNat h
    simp at this; omega
  constructor
  · apply BitVec.eq_of_toNat_eq
    simp [reservedField, Nat.shiftRight_eq_div_pow]; omega
  · simp [opField]; omega

/-- The low byte as a number (30_encoding.md R48). -/
theorem loByte_eq (v : Half) : loByte v = BitVec.ofNat 8 (v.toNat % 256) := by
  apply BitVec.eq_of_toNat_eq
  have : v.toNat % 256 &&& 255 = v.toNat % 256 := (Nat.and_two_pow_sub_one_eq_mod _ 8).trans (Nat.mod_mod _ _)
  simp [loByte, this]

/-- The high byte as a number (30_encoding.md R48). -/
theorem hiByte_eq (v : Half) : hiByte v = BitVec.ofNat 8 (v.toNat / 256) := by
  apply BitVec.eq_of_toNat_eq
  have : v.toNat / 256 % 256 &&& 255 = v.toNat / 256 % 256 :=
    (Nat.and_two_pow_sub_one_eq_mod _ 8).trans (Nat.mod_mod _ _)
  simp [hiByte, Nat.shiftRight_eq_div_pow, this]

/-- The bits of the low byte. -/
theorem getLsbD_loByte (v : Half) (j : Nat) : (loByte v).getLsbD j = (decide (j < 8) && v.getLsbD j) := by
  rw [loByte_eq, show BitVec.ofNat 8 (v.toNat % 256) = v.setWidth 8 from by apply BitVec.eq_of_toNat_eq; simp]
  simp

/-- The bits of the high byte. -/
theorem getLsbD_hiByte (v : Half) (j : Nat) : (hiByte v).getLsbD j = (decide (j < 8) && v.getLsbD (8 + j)) := by
  rw [hiByte_eq, show BitVec.ofNat 8 (v.toNat / 256) = (v >>> 8).setWidth 8 from by
    apply BitVec.eq_of_toNat_eq; simp [Nat.shiftRight_eq_div_pow]]
  simp

/-- The bytes of the template after injection (40_value_writer.md R56). -/
theorem getElem?_injectValue (t : List Byte) (v : Half) (ht : t.length = 9) :
    (injectValue t v)[7]? = some (hiByte v) ∧ (injectValue t v)[8]? = some (loByte v) ∧
      ∀ i, i < 7 → (injectValue t v)[i]? = t[i]? := by
  refine ⟨?_, ?_, fun i hi => ?_⟩
  · simp [injectValue, Config.valueHiIndex, Config.valueLoIndex, ht]
  · simp [injectValue, Config.valueHiIndex, Config.valueLoIndex, ht]
  · have h1 : ¬ 8 = i := by omega
    have h2 : ¬ 7 = i := by omega
    simp [injectValue, Config.valueHiIndex, Config.valueLoIndex, h1, h2]

/-- The valid bytes of an OK response are the ones packed. -/
theorem rspData_okResponse (n : Nat) (d : List Byte) (hn : n ≤ 11) (h : d.length = n) :
    rspData n (okResponse d).pack = d := by simpa using rspData_pack n (okResponse d) hn h

/-- An iteration whose shifted-out bit is 0 (41_checksum.md R62). -/
theorem bitStep_of_false {a : Half} (h : a.getLsbD 0 = false) : bitStep a = a >>> 1 := by
  unfold bitStep; rw [h]; rfl

/-- An iteration whose shifted-out bit is 1 (41_checksum.md R62). -/
theorem bitStep_of_true {a : Half} (h : a.getLsbD 0 = true) : bitStep a = (a >>> 1) ^^^ Config.crcPoly := by
  unfold bitStep; rw [h]; rfl

end Sys2Proof.Machine
end

