-- ==== Sys2Proof/Laws/PerInstr.lean ====
section
/-! SUPPORT. Statements about every instruction as syntax, one lemma per constructor. LowByte: the low byte of the canonical
request word is the operation code of 30_encoding.md R41, its reserved bits 0 (R40). -/
namespace Sys2Proof.Laws.LowByte
open Sys2Proof.Machine

/-- The low byte of the request word is the operation code, zero-extended. -/
def Statement (i : Instr) : Prop := (encode i).extractLsb' 0 8 = (opcode i).setWidth 8

/-- The low byte of any packed request. -/
theorem packRequest_lowByte (op : BitVec 3) (t : List Byte) (v lo hi : Half) :
    (packRequest op t v lo hi).extractLsb' 0 8 = op.setWidth 8 := by
  apply BitVec.eq_of_getLsbD_eq
  intro j hj
  rw [BitVec.getLsbD_extractLsb', getLsbD_packRequest _ _ _ _ _ _ (by omega)]
  have h1 : ¬ 8 ≤ j := by omega
  have h2 : ¬ 80 ≤ j := by omega
  have h3 : ¬ 96 ≤ j := by omega
  have h4 : ¬ 112 ≤ j := by omega
  simp [hj, h1, h2, h3, h4]

theorem writeValue (tmpl : List Byte) (value : Half) : Statement (.writeValue tmpl value) := packRequest_lowByte _ _ _ _ _
theorem checksum (tmpl : List Byte) : Statement (.checksum tmpl) := packRequest_lowByte _ _ _ _ _
theorem packetize (tmpl : List Byte) : Statement (.packetize tmpl) := packRequest_lowByte _ _ _ _ _
theorem range (value min max : Half) : Statement (.range value min max) := packRequest_lowByte _ _ _ _ _

end Sys2Proof.Laws.LowByte
end

