-- ==== Sys2Proof/Laws/Sequence.lean ====
section
/-! SUPPORT. Command sequences: the environment, what the checks of 44_sequences.md R74 give when the sequence runs, and what
a host makes of the response its statement's operation gives. -/
namespace Sys2Proof.Machine

/-- The newest binding is found. -/
theorem lookup_cons_self {α : Type} (env : List (Ident × α)) (d : Ident) (v : α) : lookup ((d, v) :: env) d = some v := by
  simp [lookup]

/-- A binding of another name is passed over. -/
theorem lookup_cons_ne {α : Type} (env : List (Ident × α)) (d x : Ident) (v : α) (h : d ≠ x) :
    lookup ((d, v) :: env) x = lookup env x := by simp [lookup, h]

/-- The kinds of the inputs: each is a number, and no other name is bound (44_sequences.md R74). -/
theorem lookup_inputs (inputs : List Ident) (x : Ident) (κ : Kind) :
    lookup (inputs.map fun y => (y, Kind.num)) x = some κ ↔ x ∈ inputs ∧ κ = .num := by
  induction inputs with
  | nil => simp [lookup]
  | cons y ys ih =>
    by_cases h : y = x
    · subst h; simp [lookup, eq_comm]
    · simp [lookup, h, ih, Ne.symm h]

/-- A name is fresh when nothing binds it. -/
theorem fresh_iff {ctx : KindEnv} {d : Ident} : fresh ctx d = true ↔ lookup ctx d = none := by simp [fresh]

/-- The check of a 16-bit operand, by the names it reads. -/
theorem NumOperand.checks_iff {ctx : KindEnv} {v : NumOperand} :
    v.checks ctx = true ↔ ∀ x need, (x, some need) ∈ v.reads → lookup ctx x = some need := by
  cases v <;> simp [NumOperand.checks, NumOperand.reads]

/-- The check of a template operand, by the names it reads and the length of its literal. -/
theorem TmplOperand.checks_iff {ctx : KindEnv} {t : TmplOperand} :
    t.checks ctx = true ↔ (∀ x need, (x, some need) ∈ t.reads → lookup ctx x = some need) ∧
      ∀ bs, t = .lit bs → bs.length = 9 := by
  cases t <;> simp [TmplOperand.checks, TmplOperand.reads]

/-- Before the first statement only the inputs are bound. -/
theorem boundBefore_zero {inputs : List Ident} {body : List Stmt} {x : Ident} {κ : Kind} :
    BoundBefore inputs body 0 x κ ↔ x ∈ inputs ∧ κ = .num := by simp [BoundBefore]

/-- The kinds the checks assume are those of the values bound, and every bound template has nine bytes. -/
structure Compatible (ctx : KindEnv) (env : Env) : Prop where
  kinds : ∀ x, lookup ctx x = (lookup env x).map Val.kind
  templates : ∀ x bs, lookup env x = some (.template bs) → IsTemplate bs

/-- Every binding is kept. -/
def Extends (env env' : Env) : Prop := ∀ x v, lookup env x = some v → lookup env' x = some v

/-- A checked 16-bit operand has a value. -/
theorem Compatible.num_eval {ctx : KindEnv} {env : Env} (h : Compatible ctx env) {v : NumOperand}
    (hv : v.checks ctx = true) : ∃ n, v.eval env = some n := by
  cases v with
  | lit v => exact ⟨v, rfl⟩
  | name x =>
    simp only [NumOperand.checks, beq_iff_eq, h.kinds] at hv
    simp only [NumOperand.eval]
    cases hx : lookup env x with
    | none => simp [hx] at hv
    | some v => cases v <;> simp [hx, Val.kind] at hv ⊢

/-- A checked template operand has a value of nine bytes. -/
theorem Compatible.tmpl_eval {ctx : KindEnv} {env : Env} (h : Compatible ctx env) {t : TmplOperand}
    (hv : t.checks ctx = true) : ∃ bs, t.eval env = some bs ∧ IsTemplate bs := by
  cases t with
  | lit bs =>
    have := of_decide_eq_true hv
    exact ⟨bs, by simp only [TmplOperand.eval]; rw [if_pos this], this⟩
  | name x =>
    simp only [TmplOperand.checks, beq_iff_eq, h.kinds] at hv
    simp only [TmplOperand.eval]
    cases hx : lookup env x with
    | none => simp [hx] at hv
    | some v =>
      cases v <;> simp [hx, Val.kind] at hv ⊢
      exact h.templates x _ hx

/-- Binding a value of a kind. -/
theorem Compatible.cons {ctx : KindEnv} {env : Env} (h : Compatible ctx env) (d : Ident) (v : Val)
    (hv : ∀ bs, v = .template bs → IsTemplate bs) : Compatible ((d, v.kind) :: ctx) ((d, v) :: env) := by
  constructor
  · intro x
    by_cases hx : d = x
    · subst hx; simp [lookup_cons_self]
    · rw [lookup_cons_ne _ _ _ _ hx, lookup_cons_ne _ _ _ _ hx]; exact h.kinds x
  · intro x bs hb
    by_cases hx : d = x
    · subst hx; rw [lookup_cons_self] at hb; exact hv bs (Option.some.inj hb)
    · rw [lookup_cons_ne _ _ _ _ hx] at hb; exact h.templates x bs hb

/-- Binding a fresh name keeps every binding. -/
theorem Compatible.extends_cons {ctx : KindEnv} {env : Env} (h : Compatible ctx env) {d : Ident} {v : Val}
    (hf : fresh ctx d = true) : Extends env ((d, v) :: env) := by
  intro x w hx
  have : d ≠ x := by
    rintro rfl
    simp [fresh, h.kinds, hx] at hf
  rw [lookup_cons_ne _ _ _ _ this, hx]

/-- A checked statement goes on or ends; it is never stuck. -/
theorem Compatible.effect {ctx : KindEnv} {env : Env} {st : Stmt} {rest : List Stmt} (h : Compatible ctx env)
    (hb : bodyChecks ctx (st :: rest) = true) :
    (∃ env' ctx', st.effect env = .goesOn env' ∧ Compatible ctx' env' ∧ bodyChecks ctx' rest = true ∧
      Extends env env') ∨ ∃ res, st.effect env = .ends res := by
  cases st with
  | writeValue d t v =>
    simp only [bodyChecks, Bool.and_eq_true] at hb
    obtain ⟨⟨⟨ht, hv⟩, hf⟩, hr⟩ := hb
    obtain ⟨bs, e1, w⟩ := h.tmpl_eval ht
    obtain ⟨n, e2⟩ := h.num_eval hv
    exact .inl ⟨_, _, by simp only [Stmt.effect, e1, e2],
      h.cons d (.template (injectValue bs n)) (by intro b hb; cases hb; simpa using w), hr, h.extends_cons hf⟩
  | checksum d t =>
    simp only [bodyChecks, Bool.and_eq_true] at hb
    obtain ⟨⟨ht, hf⟩, hr⟩ := hb
    obtain ⟨bs, e1, w⟩ := h.tmpl_eval ht
    exact .inl ⟨_, _, by simp only [Stmt.effect, e1],
      h.cons d (.checksum (checksumOf bs)) (by intro b hb; cases hb), hr, h.extends_cons hf⟩
  | packetize d t =>
    simp only [bodyChecks, Bool.and_eq_true] at hb
    obtain ⟨⟨ht, hf⟩, hr⟩ := hb
    obtain ⟨bs, e1, w⟩ := h.tmpl_eval ht
    exact .inl ⟨_, _, by simp only [Stmt.effect, e1],
      h.cons d (.frame (frameOf bs)) (by intro b hb; cases hb), hr, h.extends_cons hf⟩
  | range v a b =>
    simp only [bodyChecks, Bool.and_eq_true] at hb
    obtain ⟨⟨⟨hv, ha⟩, hb'⟩, hr⟩ := hb
    obtain ⟨n, e1⟩ := h.num_eval hv
    obtain ⟨lo, e2⟩ := h.num_eval ha
    obtain ⟨hi, e3⟩ := h.num_eval hb'
    simp only [Stmt.effect, e1, e2, e3]
    by_cases hlt : hi < n
    · right; exact ⟨_, by rw [if_pos hlt]⟩
    · left; exact ⟨env, ctx, by rw [if_neg hlt], h, hr, fun _ _ h => h⟩
  | ret x =>
    simp only [bodyChecks, Bool.and_eq_true] at hb
    right
    cases hx : lookup env x with
    | none => simp [h.kinds, hx] at hb
    | some v => exact ⟨.ok v, by simp only [Stmt.effect, hx]⟩

/-- The inputs are 16-bit values (44_sequences.md R74). -/
theorem compatible_inputEnv (inputs : List (Ident × Half)) :
    Compatible ((inputs.map Prod.fst).map fun x => (x, .num)) (inputEnv inputs) := by
  induction inputs with
  | nil => exact ⟨fun x => rfl, fun x bs h => by cases h⟩
  | cons p ps ih => exact ih.cons p.1 (.num p.2) (fun bs h => by cases h)

/-- After some statements of a checked body, what is left is checked, every input is still bound, and the rest comes to what
the whole comes to. -/
theorem envAfter_checks (k : Nat) : ∀ {body : List Stmt} {ctx : KindEnv} {env₀ env : Env}, Compatible ctx env₀ →
    bodyChecks ctx body = true → envAfter k env₀ body = some env →
    ∃ ctx', Compatible ctx' env ∧ bodyChecks ctx' (body.drop k) = true ∧ Extends env₀ env ∧
      resultFrom env (body.drop k) = resultFrom env₀ body := by
  induction k with
  | zero =>
    intro body ctx env₀ env h hb he
    simp [envAfter] at he; subst he
    exact ⟨ctx, h, hb, fun _ _ h => h, rfl⟩
  | succ k ih =>
    intro body ctx env₀ env h hb he
    cases body with
    | nil => cases he
    | cons st rest =>
      rcases h.effect hb with ⟨env', ctx', e, h', hb', hx⟩ | ⟨res, e⟩
      · simp only [envAfter, e] at he
        obtain ⟨c2, h2, hb2, hx2, hr⟩ := ih h' hb' he
        refine ⟨c2, h2, hb2, fun x v h => hx2 x v (hx x v h), ?_⟩
        simp only [List.drop_succ_cons, resultFrom, e, hr]
      · simp only [envAfter, e] at he; cases he

/-- One more statement. -/
theorem envAfter_succ (k : Nat) : ∀ {body : List Stmt} {env₀ env env' : Env} {st : Stmt}, envAfter k env₀ body = some env →
    body[k]? = some st → st.effect env = .goesOn env' → envAfter (k + 1) env₀ body = some env' := by
  induction k with
  | zero =>
    intro body env₀ env env' st h hb he
    cases body with
    | nil => cases hb
    | cons s r => simp at hb; subst hb; simp [envAfter] at h; subst h; simp only [envAfter, he]
  | succ k ih =>
    intro body env₀ env env' st h hb he
    cases body with
    | nil => cases hb
    | cons s r =>
      simp at hb
      simp only [envAfter] at h ⊢
      cases hs : s.effect env₀ with
      | goesOn e => simp only [hs] at h ⊢; exact ih h hb he
      | ends r => simp [hs] at h
      | stuck => simp [hs] at h

/-- A statement that is not stuck and is no RETURN issues an operation. -/
theorem instr?_of_effect {st : Stmt} {env : Env} (hne : st.effect env ≠ .stuck) (hr : ∀ x, st ≠ .ret x) :
    ∃ i, st.instr? env = some i := by
  cases st with
  | ret x => exact absurd rfl (hr x)
  | writeValue d t v =>
    simp only [Stmt.effect, Stmt.instr?] at hne ⊢
    cases h1 : t.eval env <;> cases h2 : v.eval env <;> simp_all
  | checksum d t =>
    simp only [Stmt.effect, Stmt.instr?] at hne ⊢
    cases h1 : t.eval env <;> simp_all
  | packetize d t =>
    simp only [Stmt.effect, Stmt.instr?] at hne ⊢
    cases h1 : t.eval env <;> simp_all
  | range v a b =>
    simp only [Stmt.effect, Stmt.instr?] at hne ⊢
    cases h1 : v.eval env <;> cases h2 : a.eval env <;> cases h3 : b.eval env <;> simp_all

/-- A host that takes in the response of its statement's operation does what the statement does (44_sequences.md R75,
R76). -/
theorem receive_responseOf {c : Run} {st : Stmt} {i : Instr} (hb : c.body[c.k]? = some st)
    (hi : st.instr? c.env = some i) :
    (∃ env', st.effect c.env = .goesOn env' ∧
      c.receive (responseOf i).pack = { c with env := env', k := c.k + 1, phase := .ready }) ∨
    (∃ res, st.effect c.env = .ends res ∧ c.receive (responseOf i).pack = c.finish res) := by
  have hw := wellFormed_of_instr? hi
  cases st with
  | ret x => cases hi
  | writeValue d t v =>
    left
    simp only [Stmt.instr?] at hi
    split at hi
    · rename_i bs n h1 h2; cases hi
      have : bs.length = 9 := of_decide_eq_true hw
      refine ⟨_, by simp only [Stmt.effect, h1, h2]; rfl, ?_⟩
      simp only [Run.receive, hb]
      rw [show rspData Config.templateLen (responseOf (.writeValue bs n)).pack = injectValue bs n from
        rspData_okResponse 9 _ (by omega) (by simp [this])]; rfl
    · cases hi
  | checksum d t =>
    left
    simp only [Stmt.instr?, Option.map_eq_some_iff] at hi
    obtain ⟨bs, h1, rfl⟩ := hi
    refine ⟨_, by simp only [Stmt.effect, h1]; rfl, ?_⟩
    simp only [Run.receive, hb]
    rw [show rspData Config.checksumLen (responseOf (.checksum bs)).pack = checksumOf bs from
      rspData_okResponse 2 _ (by omega) (by simp)]; rfl
  | packetize d t =>
    left
    simp only [Stmt.instr?, Option.map_eq_some_iff] at hi
    obtain ⟨bs, h1, rfl⟩ := hi
    have : bs.length = 9 := of_decide_eq_true hw
    refine ⟨_, by simp only [Stmt.effect, h1]; rfl, ?_⟩
    simp only [Run.receive, hb]
    rw [show rspData Config.frameLen (responseOf (.packetize bs)).pack = frameOf bs from
      rspData_okResponse 11 _ (by omega) (by simp [this])]; rfl
  | range v a b =>
    simp only [Stmt.instr?] at hi
    split at hi
    · rename_i n lo hi' h1 h2 h3; cases hi
      by_cases h : hi' < n
      · right
        refine ⟨.invalidRange lo hi', by simp only [Stmt.effect, h1, h2, h3]; rw [if_pos h], ?_⟩
        simp only [Run.receive, hb, responseOf, rangeResponse_of_lt h, rspStatus_pack]
        rw [rspStart_pack _ (by simp), rspEnd_pack _ (by simp)]; simp
      · left
        refine ⟨c.env, by simp only [Stmt.effect, h1, h2, h3]; rw [if_neg h], ?_⟩
        simp only [Run.receive, hb, responseOf, rangeResponse_of_not_lt h, rspStatus_pack]; simp
    · cases hi

/-- Taking a response in keeps the sequence. -/
theorem receive_keeps (c : Run) (r : RspWord) : (c.receive r).inputs = c.inputs ∧ (c.receive r).body = c.body := by
  unfold Run.receive
  split <;> first | exact ⟨rfl, rfl⟩ | (split <;> exact ⟨rfl, rfl⟩)

/-- Starting keeps the sequence. -/
theorem start_keeps (c : Run) : c.start.inputs = c.inputs ∧ c.start.body = c.body := by
  unfold Run.start
  split <;> exact ⟨rfl, rfl⟩

/-- Running again keeps the sequence. -/
theorem again_keeps (c : Run) : c.again.inputs = c.inputs ∧ c.again.body = c.body := by
  unfold Run.again
  split <;> exact ⟨rfl, rfl⟩

end Sys2Proof.Machine
end

