-- ==== Sys2Proof/Laws/Turn.lean ====
section
/-! SUPPORT. What a step can do, said once: which agent moved, and what each move makes of the state. -/
namespace Sys2Proof.Machine

/-- The state with another schedule. -/
abbrev State.withSched (s : State) (sched : List Move) : State := { s with sched := sched }

/-- The block performs an outstanding request. -/
theorem serve_of_decode {s : State} {o : Outstanding} {i : Instr} (h : s.request = some o) (hd : decode o.word = .ok i) :
    s.serve = exec i s := by simp [State.serve, h, hd]

/-- The block refuses a reserved request. -/
theorem serve_of_error {s : State} {o : Outstanding} {e : DecodeError} (h : s.request = some o)
    (hd : decode o.word = .error e) : s.serve = .refused (refusalOf e) := by simp [State.serve, h, hd]

/-- The block is idle. -/
theorem serve_of_none {s : State} (h : s.request = none) : s.serve = .next s := by simp [State.serve, h]

/-- A step with a move on the schedule is that move. -/
theorem step_of_sched {s : State} {m : Move} {rest : List Move} (h : s.sched = m :: rest) :
    step s = s.scheduledTurn m rest := by simp only [step, State.turn, h]

/-- When the block moves next and a request is outstanding, the step is the block's. -/
theorem step_of_blockMovesNext {s : State} {o : Outstanding} (hb : s.BlockMovesNext) (hr : s.request = some o) :
    step s = s.afterMove.serve := by
  rcases hb with h | ⟨rest, h⟩
  · simp only [step, State.turn, h, State.defaultTurn, hr]
    congr 1
    simp [State.afterMove, h]
    cases s; simp_all
  · simp only [step, State.turn, h, State.scheduledTurn, State.afterMove, List.tail_cons]

/-- The first of several steps. -/
theorem run_of_step {k : Nat} {s s' : State} (h : step s = .next s') :
    Host.Core.run core (k + 1) s = Host.Core.run core k s' := by
  have h' : core.step s = .next s' := h
  simp only [Host.Core.run, h']

/-- All that serving can do when it answers a next state. -/
theorem serve_next {s t : State} (h : s.serve = .next t) :
    (s.request = none ∧ t = s) ∨
      ∃ o i, s.request = some o ∧ decode o.word = .ok i ∧ t = s.respond (responseOf i).pack := by
  cases hr : s.request with
  | none => rw [serve_of_none hr] at h; injection h with h; exact .inl ⟨rfl, h.symm⟩
  | some o =>
    cases hd : decode o.word with
    | error e => rw [serve_of_error hr hd] at h; cases h
    | ok i => rw [serve_of_decode hr hd] at h; exact .inr ⟨o, i, rfl, hd, (exec_next h).2⟩

/-- What a step made of the state, by the agent that moved. -/
inductive Happened (s t : State) : Prop where
  /-- nothing but the schedule moved -/
  | idle (sc : List Move) (ht : t = s.withSched sc)
  /-- the block answered the outstanding request -/
  | served (sc : List Move) (o : Outstanding) (i : Instr) (hr : s.request = some o) (hd : decode o.word = .ok i)
      (ht : t = (s.withSched sc).respond (responseOf i).pack)
  /-- the host of run `n` moved -/
  | host (sc : List Move) (n : Nat) (ht : t = (s.withSched sc).hostMove n)
  /-- a requester outside presented a request -/
  | asked (sc : List Move) (w : ReqWord) (hs : s.sched = .request w :: sc) (hr : s.request = none)
      (ht : t = (s.withSched sc).issue .outside w)
  /-- a host loaded a sequence -/
  | loaded (sc : List Move) (inputs : List (Ident × Half)) (body : List Stmt) (hs : s.sched = .load inputs body :: sc)
      (ht : t = (s.withSched sc).load inputs body)
  /-- the host of run `n` ran it again -/
  | restarted (sc : List Move) (n : Nat) (hs : s.sched = .restart n :: sc) (ht : t = (s.withSched sc).restart n)
  /-- reset took the block -/
  | wasReset (sc : List Move) (hs : s.sched = .reset :: sc) (ht : t = (s.withSched sc).takeReset)

/-- Serving, as one of the things a step can do. -/
theorem happened_of_serve {s t : State} (sc : List Move) (h : (s.withSched sc).serve = .next t) : Happened s t := by
  rcases serve_next h with ⟨_, rfl⟩ | ⟨o, i, hr, hd, rfl⟩
  · exact .idle sc rfl
  · exact .served sc o i hr hd rfl

/-- Every step that answers a next state is one of these. -/
theorem step_next {s t : State} (h : step s = .next t) : Happened s t := by
  have same : s.withSched s.sched = s := rfl
  unfold step State.turn at h
  split at h
  · unfold State.defaultTurn at h
    split at h
    · exact happened_of_serve s.sched h
    · split at h
      · injection h with h; exact .host s.sched _ (by rw [same]; exact h.symm)
      · injection h with h; exact .idle s.sched (by rw [same]; exact h.symm)
  · rename_i m rest hs
    cases m with
    | block => exact happened_of_serve rest h
    | run n => injection h with h; exact .host rest n h.symm
    | request w =>
      simp only [State.scheduledTurn, State.presentTurn] at h
      split at h
      · exact happened_of_serve s.sched h
      · rename_i hr; injection h with h; exact .asked rest w hs hr h.symm
    | load inputs body => injection h with h; exact .loaded rest inputs body hs h.symm
    | restart n => injection h with h; exact .restarted rest n hs h.symm
    | reset => injection h with h; exact .wasReset rest hs h.symm

/-- What the move of a host makes of the state. -/
inductive HostMoved (s : State) (n : Nat) (t : State) : Prop where
  /-- the host had no move to make, or the block was busy -/
  | waited (ht : t = s)
  /-- the run started, or was refused -/
  | started (c : Run) (hc : s.runs[n]? = some c) (hp : c.phase = .starting) (ht : t = s.setRun n c.start)
  /-- the run had nothing to go on with: no statement, an operand or a returned name with no value -/
  | refused (c : Run) (hc : s.runs[n]? = some c) (hp : c.phase = .ready)
      (hb : c.body[c.k]? = none ∨ (∃ st, c.body[c.k]? = some st ∧ (∀ x, st ≠ .ret x) ∧ st.instr? c.env = none) ∨
        ∃ x, c.body[c.k]? = some (.ret x) ∧ lookup c.env x = none)
      (ht : t = s.setRun n c.refuse)
  /-- the run returned -/
  | returned (c : Run) (hc : s.runs[n]? = some c) (hp : c.phase = .ready) (x : Ident) (v : Val)
      (hb : c.body[c.k]? = some (.ret x)) (hv : lookup c.env x = some v) (ht : t = s.setRun n (c.finish (.ok v)))
  /-- the host issued the request of the statement -/
  | issued (c : Run) (hc : s.runs[n]? = some c) (hp : c.phase = .ready) (st : Stmt) (i : Instr)
      (hb : c.body[c.k]? = some st) (hi : st.instr? c.env = some i) (hr : s.request = none) (ht : t = s.issueFor n c i)
  /-- the host took a response in -/
  | received (c : Run) (hc : s.runs[n]? = some c) (r : RspWord) (hp : c.phase = .received r)
      (ht : t = s.setRun n (c.receive r))

/-- Every move of a host is one of these. -/
theorem hostMove_cases (s : State) (n : Nat) : HostMoved s n (s.hostMove n) := by
  unfold State.hostMove
  split
  · exact .waited rfl
  · rename_i c hc
    split
    · rename_i hp; exact .started c hc hp rfl
    · rename_i hp
      split
      · rename_i hb; exact .refused c hc hp (.inl hb) rfl
      · rename_i st hb
        unfold State.runStmt
        split
        · rename_i x
          cases hv : lookup c.env x with
          | none => exact .refused c hc hp (.inr (.inr ⟨x, hb, hv⟩)) (by simp [Run.returns, hv])
          | some v => exact .returned c hc hp x v hb hv (by simp [Run.returns, hv])
        · rename_i hx
          split
          · rename_i hi; exact .refused c hc hp (.inr (.inl ⟨st, hb, hx, hi⟩)) rfl
          · rename_i i hi
            split
            · exact .waited rfl
            · rename_i hr; exact .issued c hc hp st i hb hi (by simpa using hr) rfl
    · rename_i r hp; exact .received c hc r hp rfl
    all_goals exact .waited rfl

end Sys2Proof.Machine
end

