-- ==== Sys2Proof/Tests/Slice0.lean ====
section
/-! SUPPORT. The model's own tests. Every expected word, byte and result is one of spec/95_test_vectors.md, under the name it
has there, or is written out by hand from the layouts of 30_encoding.md R40 and R44; the witnesses at the end meet the
hypotheses of the statements. -/
namespace Sys2Proof.Tests
open Sys2Proof.Machine

/-! ## Small states and what is read off an outcome -/

/-- A block with one raw request outstanding and nothing else. -/
def asked (w : ReqWord) : State :=
  { request := some { issuer := .outside, word := w }, response := none, runs := [], sched := [] }

/-- A machine with one run, nothing outstanding, and this schedule. -/
def hosting (c : Run) (sched : List Move) : State := { request := none, response := none, runs := [c], sched := sched }

/-- A machine with one run that waits for this request. -/
def waitingFor (c : Run) (w : ReqWord) (sched : List Move) : State :=
  { request := some { issuer := .run 0, word := w }, response := none, runs := [c], sched := sched }

/-- The response word after a step. -/
def answer (o : Host.Outcome State Fault Refusal) : Option RspWord :=
  match o with
  | .next t => t.response.map Returned.word
  | _ => none

/-- The refusal of a step. -/
def refusal (o : Host.Outcome State Fault Refusal) : Option Refusal :=
  match o with
  | .refused r => some r
  | _ => none

/-- The runs after a step. -/
def runsAfter (o : Host.Outcome State Fault Refusal) : List Run :=
  match o with
  | .next t => t.runs
  | _ => []

/-- The request word outstanding after a step. -/
def requestAfter (o : Host.Outcome State Fault Refusal) : Option ReqWord :=
  match o with
  | .next t => t.request.map Outstanding.word
  | _ => none

/-- The template of WV-1. -/
def tmpl1 : List Byte := [0x01, 0x02, 0x03, 0x04, 0x05, 0x06, 0x07, 0x00, 0x00]

/-- The template of WV-1 after the value is written. -/
def tmpl2 : List Byte := [0x01, 0x02, 0x03, 0x04, 0x05, 0x06, 0x07, 0x01, 0x2C]

/-! ## WellFormed: each check refuses an ill-formed term (10_state.md R20, 44_sequences.md R74) -/

theorem test_wellFormed_nine : (Instr.checksum tmpl1).wellFormed = true := by decide
theorem test_wellFormed_writeValue_eight : (Instr.writeValue (tmpl1.take 8) 300#16).wellFormed = false := by decide
theorem test_wellFormed_checksum_ten : (Instr.checksum (0#8 :: tmpl1)).wellFormed = false := by decide
theorem test_wellFormed_packetize_frame : (Instr.packetize (tmpl1 ++ [0#8, 0#8])).wellFormed = false := by decide
theorem test_wellFormed_range : (Instr.range 25#16 30#16 20#16).wellFormed = true := by decide

/-- A name of the tests. -/
abbrev nm (s : String) : Ident := .user s

theorem test_sequence_wellFormed :
    sequenceWellFormed [nm "v"] [.writeValue (nm "t") (.lit tmpl1) (.name (nm "v")), .ret (nm "t")] = true := by decide
theorem test_sequence_unbound :
    sequenceWellFormed [] [.writeValue (nm "t") (.lit tmpl1) (.name (nm "v")), .ret (nm "t")] = false := by decide
theorem test_sequence_not_fresh :
    sequenceWellFormed [nm "v"] [.packetize (nm "v") (.lit tmpl1), .ret (nm "v")] = false := by decide
theorem test_sequence_wrong_kind_template :
    sequenceWellFormed [nm "v"] [.packetize (nm "f") (.name (nm "v")), .ret (nm "f")] = false := by decide
theorem test_sequence_wrong_kind_number :
    sequenceWellFormed [] [.packetize (nm "f") (.lit tmpl1), .range (.name (nm "f")) (.lit 0#16) (.lit 9#16), .ret (nm "f")]
      = false := by decide
theorem test_sequence_no_return : sequenceWellFormed [] [.packetize (nm "f") (.lit tmpl1)] = false := by decide
theorem test_sequence_early_return :
    sequenceWellFormed [nm "v"] [.ret (nm "v"), .packetize (nm "f") (.lit tmpl1), .ret (nm "f")] = false := by decide
theorem test_sequence_short_literal :
    sequenceWellFormed [] [.packetize (nm "f") (.lit (tmpl1.take 8)), .ret (nm "f")] = false := by decide
theorem test_sequence_same_input_twice : sequenceWellFormed [nm "v", nm "v"] [.ret (nm "v")] = false := by decide

/-! ## Decode: one word of every constructor, written out, and the refused ones -/

/-- WV-1: low byte 00, template bytes 01 to 07, 00, 00 from bit 8 up, value 012C from bit 80 up. -/
theorem test_decode_writeValue :
    decode 0x0000_0000_012C_0000_0706_0504_0302_0100#128 = .ok (.writeValue tmpl1 300#16) := by decide
/-- CK-3. -/
theorem test_decode_checksum : decode 0x0000_0000_0000_3938_3736_3534_3332_3101#128 =
    .ok (.checksum [0x31, 0x32, 0x33, 0x34, 0x35, 0x36, 0x37, 0x38, 0x39]) := by decide
/-- PK-3. -/
theorem test_decode_packetize :
    decode 0x0000_0000_0000_2C01_0706_0504_0302_0102#128 = .ok (.packetize tmpl2) := by decide
/-- RG-12: value 25, min 30, max 20. -/
theorem test_decode_range :
    decode 0x0014_001E_0019_0000_0000_0000_0000_0003#128 = .ok (.range 25#16 30#16 20#16) := by decide
/-- WV-1 with its unused fields set (section 2.1). -/
theorem test_decode_unused_fields :
    decode 0x2222_1111_012C_0000_0706_0504_0302_0100#128 = .ok (.writeValue tmpl1 300#16) := by decide
/-- RF-1 to RF-4. -/
theorem test_decode_refused : decode 0x04#128 = .error .reservedOp ∧ decode 0x07#128 = .error .reservedOp ∧
    decode 0x08#128 = .error .reservedBits ∧ decode 0x83#128 = .error .reservedBits := by decide
/-- The worked encoding of 30_encoding.md R55. -/
theorem test_encode_writeValue :
    encode (.writeValue tmpl1 300#16) = 0x0000_0000_012C_0000_0706_0504_0302_0100#128 := by decide
/-- RG-4. -/
theorem test_encode_range : encode (.range 21#16 10#16 20#16) = 0x0014_000A_0015_0000_0000_0000_0000_0003#128 := by decide
/-- The table's numbering is the request word's; bits above the count are 0. -/
theorem test_decodeTableWord : decodeTableWord 8 0xFF02 = some (.packetize (List.replicate 9 0#8)) ∧
    decodeTableWord 128 0x0014_0000_0019_0000_0000_0000_0000_0003 = some (.range 25#16 0#16 20#16) ∧
    decodeTableWord 8 0x04 = none := by decide

/-! ## One step per vector -/

theorem test_writeValue_wv1 : answer (step (asked 0x0000_0000_012C_0000_0706_0504_0302_0100#128)) =
    some 0x0000_0000_0000_2C01_0706_0504_0302_0100#128 := by decide +kernel
theorem test_writeValue_wv4 : answer (step (asked 0x0000_0000_0000_FFFF_FFFF_FFFF_FFFF_FF00#128)) =
    some 0x0000_0000_0000_0000_FFFF_FFFF_FFFF_FF00#128 := by decide +kernel
theorem test_checksum_ck1 : answer (step (asked 0x0000_0000_0000_0000_0000_0000_0000_0001#128)) =
    some 0x0000_0000_0000_0000_0000_0000_00F0_0A00#128 := by decide +kernel
theorem test_checksum_ck8 : answer (step (asked 0x0000_0000_0000_8000_0000_0000_0000_0001#128)) =
    some 0x0000_0000_0000_0000_0000_0000_0050_0B00#128 := by decide +kernel
theorem test_packetize_pk3 : answer (step (asked 0x0000_0000_0000_2C01_0706_0504_0302_0102#128)) =
    some 0x0000_0000_39C9_2C01_0706_0504_0302_0100#128 := by decide +kernel
theorem test_packetize_pk2 : answer (step (asked 0x0000_0000_0000_FFFF_FFFF_FFFF_FFFF_FF02#128)) =
    some 0x0000_0000_800E_FFFF_FFFF_FFFF_FFFF_FF00#128 := by decide +kernel
theorem test_range_rg11 : answer (step (asked 0x0014_001E_0005_0000_0000_0000_0000_0003#128)) = some 0#128 := by
  decide +kernel
theorem test_range_rg12 : answer (step (asked 0x0014_001E_0019_0000_0000_0000_0000_0003#128)) =
    some 0x0014_001E_0000_0000_0000_0000_0000_0001#128 := by decide +kernel
theorem test_refused_rf1 : refusal (step (asked 0x04#128)) = some .reservedOp := by decide
theorem test_refused_rf4 : refusal (step (asked 0x0000_0000_FFFF_0000_0000_0000_0000_0083#128)) = some .reservedBits := by
  decide
theorem test_list_of_eight : refusal (exec (.checksum (tmpl1.take 8)) State.reset) = some .templateLength := by decide

/-- The traces of CK-1: the bit steps of byte 0, and the accumulator after bytes 0 and 1. -/
theorem test_crc_trace : bitStep 0xFFFF#16 = 0xDFFE#16 ∧ bitStep 0xDFFE#16 = 0x6FFF#16 ∧ byteStep 0xFFFF#16 0#8 = 0x40BF#16 ∧
    byteStep 0x40BF#16 0#8 = 0xB001#16 := by decide +kernel
/-- The trace of CK-5, bytes 0 to 2. -/
theorem test_crc_trace_ck5 : byteStep 0xFFFF#16 1#8 = 0x807E#16 ∧ byteStep 0x807E#16 2#8 = 0xE181#16 ∧
    byteStep 0xE181#16 3#8 = 0x6161#16 := by decide +kernel

/-- The word placed by withFetchWord is performed by the very next step, even on a state that has a request and a
schedule of its own. -/
theorem test_withFetchWord : answer (step (State.reset.withFetchWord 128 0x0064_0000_0064_0000_0000_0000_0000_0003)) = some 0#128 ∧
    answer (step ({ asked 0x04#128 with sched := [.reset] }.withFetchWord 128 0x0064_000A_0065_0000_0000_0000_0000_0003)) =
      some 0x0064_000A_0000_0000_0000_0000_0000_0001#128 := by decide +kernel

/-! ## Sequences: the programs of section 4 -/

/-- The text of P2. -/
def textP2 : String :=
  "RANGE       v, 100                 ; pseudo-instruction: RANGE v, 0, 100\n" ++
  "FRAME       f, [0x01, 0x02, 0x03, 0x04, 0x05, 0x06, 0x07, 0x00, 0x00], v\n" ++
  "RETURN      f\n"

/-- The body of P2 after expansion. -/
def bodyP2 : List Stmt :=
  [.range (.name (nm "v")) (.lit 0#16) (.lit 100#16),
   .writeValue (.temp 1) (.lit tmpl1) (.name (nm "v")),
   .packetize (nm "f") (.name (.temp 1)),
   .ret (nm "f")]

theorem test_assemble_p2 : assembleText textP2 = .ok bodyP2 := by decide +kernel
theorem test_assemble_byte_too_large : assembleText "PACKETIZE f, [256, 0, 0, 0, 0, 0, 0, 0, 0]" = .error .literalRange := by
  decide +kernel
theorem test_assemble_eight_bytes : assembleText "PACKETIZE f, [1, 0, 0, 0, 0, 0, 0, 0]" = .error .templateLiteral := by
  decide +kernel
theorem test_assemble_unknown : assembleText "JUMP f" = .error .badLine := by decide +kernel

theorem test_result_p2 : sequenceResult [(nm "v", 101#16)] bodyP2 = some (.invalidRange 0#16 100#16) := by decide
theorem test_result_p2_at_the_bound : sequenceResult [(nm "v", 100#16)] bodyP2 =
    some (.ok (.frame [0x01, 0x02, 0x03, 0x04, 0x05, 0x06, 0x07, 0x00, 0x64, 0xC8, 0x9F])) := by decide +kernel
theorem test_result_p3 : sequenceResult [(nm "v", 5#16)]
    [.range (.name (nm "v")) (.lit 10#16) (.lit 20#16),
     .writeValue (nm "t1") (.lit [0x10, 0x20, 0x30, 0x40, 0x50, 0x60, 0x70, 0x00, 0x00]) (.name (nm "v")),
     .packetize (nm "f") (.name (nm "t1")), .ret (nm "f")] =
    some (.ok (.frame [0x10, 0x20, 0x30, 0x40, 0x50, 0x60, 0x70, 0x00, 0x05, 0xE4, 0x3F])) := by decide +kernel
theorem test_result_p5 : sequenceResult [(nm "v", 0x012C#16)]
    [.writeValue (nm "t1") (.lit tmpl1) (.name (nm "v")), .checksum (nm "c") (.name (nm "t1")),
     .packetize (nm "f") (.name (nm "t1")), .ret (nm "c")] = some (.ok (.checksum [0xC9, 0x39])) := by decide +kernel

/-- P2 in the machine, the run about to issue its guard. -/
def guardReady : Run :=
  { inputs := [(nm "v", 101#16)], body := bodyP2, env := [(nm "v", .num 101#16)], k := 0, phase := .ready }

/-- P2, the guard issued: the request word of the table of P2. -/
theorem test_host_issues : requestAfter (step (hosting guardReady [])) =
    some 0x0064_0000_0065_0000_0000_0000_0000_0003#128 := by decide
/-- P2, the guard's response taken in: `k` and `env` stay. -/
theorem test_host_fails : runsAfter (step (hosting
      { guardReady with phase := .received 0x0064_0000_0000_0000_0000_0000_0000_0001#128 } [.run 0])) =
    [{ guardReady with phase := .finished (.invalidRange 0#16 100#16) }] := by decide
/-- P1, the response of WRITE_VALUE taken in. -/
theorem test_host_binds : runsAfter (step (hosting { guardReady with
      k := 1, phase := .received 0x0000_0000_0000_2C01_0706_0504_0302_0100#128 } [.run 0])) =
    [{ guardReady with k := 2, env := [(.temp 1, .template tmpl2), (nm "v", .num 101#16)], phase := .ready }] := by decide
/-- Reset takes the outstanding request and its run (70_reset_and_hazards.md R95). -/
theorem test_reset_abandons : runsAfter (step (waitingFor { guardReady with phase := .waiting } 0x03#128 [.reset])) =
    [{ guardReady with phase := .abandoned }] := by decide

/-! ## Witnesses: concrete values that meet the hypotheses of the statements, every clause at a boundary of its range -/

/-- RG-2: value 101, bounds 0 and 100. -/
def wordRG2 : ReqWord := 0x0064_0000_0065_0000_0000_0000_0000_0003#128

/-- The run of P2 after its guard was issued. -/
def guardWaiting : Run := { guardReady with phase := .waiting }

/-- The run of P2 after its guard failed. -/
def guardFailed : Run := { guardReady with phase := .finished (.invalidRange 0#16 100#16) }

/-- A state with one run meets the invariant when that run is sound and issued what is outstanding. -/
theorem inv_of_one {s : State} {c : Run} (hr : s.runs = [c]) (hc : c.Sound s 0)
    (hw : ∀ n w, s.request = some { issuer := .run n, word := w } → n = 0 ∧ c.phase = .waiting) : s.Inv := by
  constructor
  · intro n d hd
    rw [hr] at hd
    match n, hd with
    | 0, hd => cases hd; exact hc
    | n + 1, hd => cases hd
  · intro n w h
    obtain ⟨rfl, hp⟩ := hw n w h
    exact ⟨c, by rw [hr]; rfl, hp⟩

/-- The run of P2 with its guard outstanding meets the invariant. -/
theorem inv_guardWaiting (sched : List Move) : (waitingFor guardWaiting wordRG2 sched).Inv :=
  inv_of_one rfl ⟨⟨by decide, rfl⟩, .range 101#16 0#16 100#16, ⟨_, rfl, rfl⟩, rfl⟩ fun n w h => by cases h; exact ⟨rfl, rfl⟩

/-- The run of P2 about to issue its guard meets the invariant. -/
theorem inv_guardReady (sched : List Move) : (hosting guardReady sched).Inv :=
  inv_of_one rfl ⟨by decide, rfl⟩ fun n w h => by cases h

/-- The run of P2 after its guard failed meets the invariant. -/
theorem inv_guardFailed (sched : List Move) : (hosting guardFailed sched).Inv :=
  inv_of_one rfl ⟨⟨by decide, rfl⟩, _, rfl, rfl⟩ fun n w h => by cases h

theorem witness_DecodeIsSelectedByTheLowByte :
    (tmplField 0x0706_0504_0302_0100#128)[0]? = some 0x01#8 ∧
    (0x0706_0504_0302_0100#128).extractLsb' 0 8 = 0x00#8 ∧ (0x0102#128 >>> 8).extractLsb' 0 8 = 0x01#8 ∧
    (0xFF02#128).extractLsb' 0 8 = 0x02#8 ∧ wordRG2.extractLsb' 0 8 = 0x03#8 ∧
    3 < ((0x04#128).extractLsb' 0 8).toNat ∧ 3 < ((0xFF#128).extractLsb' 0 8).toNat := by decide

theorem witness_UnusedRequestFieldsAreIgnored :
    (asked 0#128).BlockMovesNext ∧ { asked 0#128 with sched := [.block, .reset] }.BlockMovesNext ∧
    ((0x2222_1111_012C_0000_0706_0504_0302_0100#128).extractLsb' 0 8 = 0x00#8 ∧
      (0x2222_1111_012C_0000_0706_0504_0302_0100#128).extractLsb' 0 96 =
        (0x0000_0000_012C_0000_0706_0504_0302_0100#128).extractLsb' 0 96) ∧
    ((0x0000_0000_0001_0000_0000_0000_0000_0001#128).extractLsb' 0 8 = 0x01#8 ∧
      (0x0000_0000_0001_0000_0000_0000_0000_0001#128).extractLsb' 0 80 = (0x01#128).extractLsb' 0 80) ∧
    ((0x8000_0000_0000_0000_0000_0000_0000_0002#128).extractLsb' 0 8 = 0x02#8 ∧
      (0x8000_0000_0000_0000_0000_0000_0000_0002#128).extractLsb' 0 80 = (0x02#128).extractLsb' 0 80) ∧
    ((0x0064_0000_0065_FFFF_FFFF_FFFF_FFFF_FF03#128).extractLsb' 0 8 = 0x03#8 ∧
      (0x0064_0000_0065_FFFF_FFFF_FFFF_FFFF_FF03#128).extractLsb' 0 8 = wordRG2.extractLsb' 0 8 ∧
      (0x0064_0000_0065_FFFF_FFFF_FFFF_FFFF_FF03#128).extractLsb' 80 48 = wordRG2.extractLsb' 80 48) ∧
    tmpl1.length = 9 :=
  ⟨.inl rfl, .inr ⟨_, rfl⟩, by decide⟩

theorem witness_DecodeInvertsEncode : (Instr.writeValue tmpl1 0xFFFF#16).wellFormed = true ∧
    (Instr.checksum tmpl1).wellFormed = true ∧ (Instr.packetize tmpl1).wellFormed = true ∧
    (Instr.range 0xFFFF#16 0#16 0xFFFE#16).wellFormed = true := by decide

theorem witness_EncodeOfDecodeClearsUnusedFields :
    decode 0x2222_1111_012C_0000_0706_0504_0302_0100#128 = .ok (.writeValue tmpl1 300#16) ∧
    opcode (.writeValue tmpl1 300#16) = 0#3 ∧
    decode 0xFFFF_FFFF_FFFF_2C01_0706_0504_0302_0101#128 = .ok (.checksum tmpl2) ∧ opcode (.checksum tmpl2) = 1#3 ∧
    decode 0xFFFF_FFFF_FFFF_2C01_0706_0504_0302_0102#128 = .ok (.packetize tmpl2) ∧ opcode (.packetize tmpl2) = 2#3 ∧
    decode 0x0064_0000_0065_FFFF_FFFF_FFFF_FFFF_FF03#128 = .ok (.range 101#16 0#16 100#16) ∧
    opcode (.range 101#16 0#16 100#16) = 3#3 := by decide

theorem witness_ExactlyReservedRequestsAreRefused :
    (asked 0x08#128).BlockMovesNext ∧ (asked 0x08#128).request = some { issuer := .outside, word := 0x08#128 } ∧
    (0x08#128).extractLsb' 3 5 ≠ 0#5 ∧ (0x83#128).extractLsb' 3 5 ≠ 0#5 ∧
    ((0x04#128).extractLsb' 3 5 = 0#5 ∧ 4 ≤ ((0x04#128).extractLsb' 0 3).toNat) ∧
    ((0x07#128).extractLsb' 3 5 = 0#5 ∧ 4 ≤ ((0x07#128).extractLsb' 0 3).toNat) ∧
    ((0x03#128).extractLsb' 3 5 = 0#5 ∧ ((0x03#128).extractLsb' 0 3).toNat ≤ 3) ∧
    ((0x00#128).extractLsb' 3 5 = 0#5 ∧ ((0x00#128).extractLsb' 0 3).toNat ≤ 3) :=
  ⟨.inl rfl, rfl, by decide⟩

theorem witness_StepRunsTheDecodedRequest :
    ((asked wordRG2).request = some { issuer := .outside, word := wordRG2 } ∧
      decode wordRG2 = .ok (.range 101#16 0#16 100#16) ∧ (asked wordRG2).BlockMovesNext) ∧
    { asked wordRG2 with sched := [.request 0#128, .reset] }.sched = .request 0#128 :: [.reset] ∧
    ((hosting guardReady [.block]).request = none ∧ (hosting guardReady [.block]).sched = .block :: []) :=
  ⟨⟨rfl, by decide, .inl rfl⟩, rfl, rfl, rfl⟩

theorem witness_WriteValueAnswersItsRequestWord :
    (waitingFor guardWaiting 0x012C_0000_0706_0504_0302_0100#128 [.block]).BlockMovesNext ∧
    (waitingFor guardWaiting 0x012C_0000_0706_0504_0302_0100#128 [.block]).request =
      some { issuer := .run 0, word := 0x012C_0000_0706_0504_0302_0100#128 } ∧
    (0x012C_0000_0706_0504_0302_0100#128).extractLsb' 0 8 = 0x00#8 := ⟨.inr ⟨_, rfl⟩, rfl, by decide⟩

theorem witness_ChecksumAnswersItsRequestWord : (asked 0x2C01_0706_0504_0302_0101#128).BlockMovesNext ∧
    (asked 0x2C01_0706_0504_0302_0101#128).request =
      some { issuer := .outside, word := 0x2C01_0706_0504_0302_0101#128 } ∧
    (0x2C01_0706_0504_0302_0101#128).extractLsb' 0 8 = 0x01#8 := ⟨.inl rfl, rfl, by decide⟩

theorem witness_PacketizeAnswersItsRequestWord : (asked 0x2C01_0706_0504_0302_0102#128).BlockMovesNext ∧
    (asked 0x2C01_0706_0504_0302_0102#128).request =
      some { issuer := .outside, word := 0x2C01_0706_0504_0302_0102#128 } ∧
    (0x2C01_0706_0504_0302_0102#128).extractLsb' 0 8 = 0x02#8 := ⟨.inl rfl, rfl, by decide⟩

/-- RG-2 fails, RG-1 is at the bound. -/
theorem witness_RangeAnswersItsRequestWord : (asked wordRG2).BlockMovesNext ∧
    (asked wordRG2).request = some { issuer := .outside, word := wordRG2 } ∧ wordRG2.extractLsb' 0 8 = 0x03#8 ∧
    (wordRG2.extractLsb' 112 16).toNat < (wordRG2.extractLsb' 80 16).toNat ∧
    (0x0064_0000_0064_0000_0000_0000_0000_0003#128).extractLsb' 0 8 = 0x03#8 ∧
    ((0x0064_0000_0064_0000_0000_0000_0000_0003#128).extractLsb' 80 16).toNat ≤
      ((0x0064_0000_0064_0000_0000_0000_0000_0003#128).extractLsb' 112 16).toNat := ⟨.inl rfl, rfl, by decide⟩

/-- For WriteValuePutsTheValueBigEndian, ChecksumEmitsTheLowByteFirst, FrameIsTemplateThenChecksum,
MixedWidthViewsGiveTheNumbersBack and the two circuits. -/
theorem witness_templates_of_nine : tmpl1.length = 9 ∧ tmpl2.length = 9 ∧ (List.replicate 9 0xFF#8).length = 9 := by decide

/-- RG-5 and RG-11: below the lower bound; and another lower bound for the same value. -/
theorem witness_RangeNeverComparesWithMin :
    ((5#16).toNat < (10#16).toNat ∧ (5#16).toNat ≤ (20#16).toNat) ∧ ((20#16).toNat < (21#16).toNat ∧ (20#16).toNat ≤ (20#16).toNat) ∧
    ∃ t r, exec (.range 5#16 0#16 20#16) State.reset = .next t ∧
      t.response = some { issuer := State.reset.issuer, word := r } := ⟨by decide, by decide, _, _, rfl, rfl⟩

/-- RG-12, and a further value above the bound. -/
theorem witness_FailedRangeReportsItsBounds : (20#16).toNat < (25#16).toNat ∧ (20#16).toNat < (21#16).toNat ∧
    ∃ t r, exec (.range 21#16 30#16 20#16) State.reset = .next t ∧
      t.response = some { issuer := State.reset.issuer, word := r } := ⟨by decide, by decide, _, _, rfl, rfl⟩

/-- RG-7 fails with an empty-looking payload; RG-6 does not. -/
theorem witness_OnlyAFailedRangeReportsAnError :
    (∃ t r, exec (.range 1#16 0#16 0#16) State.reset = .next t ∧
      t.response = some { issuer := State.reset.issuer, word := r } ∧ r.getLsbD 0 = true) ∧ (0#16).toNat < (1#16).toNat ∧
    (∃ t r, exec (.range 0#16 0#16 0#16) State.reset = .next t ∧
      t.response = some { issuer := State.reset.issuer, word := r } ∧ r.getLsbD 0 = false) :=
  ⟨⟨_, _, rfl, rfl, by decide⟩, by decide, _, _, rfl, rfl, by decide⟩

theorem witness_TheThreeTransformsNeverFail :
    ((Instr.writeValue tmpl1 0xFFFF#16).wellFormed = true ∧ opcode (.writeValue tmpl1 0xFFFF#16) ≠ 3#3) ∧
    ((Instr.checksum tmpl1).wellFormed = true ∧ opcode (.checksum tmpl1) ≠ 3#3) ∧
    ((Instr.packetize tmpl1).wellFormed = true ∧ opcode (.packetize tmpl1) ≠ 3#3) := by decide

/-- An instruction answers, and its response is to the issuer. -/
theorem exec_answers (i : Instr) (s : State) (h : i.wellFormed = true) :
    ∃ t r, exec i s = .next t ∧ t.response = some { issuer := s.issuer, word := r } :=
  ⟨_, _, exec_of_wellFormed i s h, rfl⟩

theorem witness_UndefinedResponseBitsAreZero :
    (∃ t r, exec (.writeValue tmpl1 300#16) (asked 0#128) = .next t ∧ t.response = some { issuer := (asked 0#128).issuer, word := r }) ∧
    (∃ t r, exec (.checksum tmpl1) (asked 0#128) = .next t ∧ t.response = some { issuer := (asked 0#128).issuer, word := r }) ∧
    (∃ t r, exec (.range 100#16 0#16 100#16) (asked 0#128) = .next t ∧
      t.response = some { issuer := (asked 0#128).issuer, word := r } ∧ rspStatus r = false) ∧
    opcode (.writeValue tmpl1 300#16) = 0#3 ∧ opcode (.checksum tmpl1) = 1#3 ∧ opcode (.range 100#16 0#16 100#16) = 3#3 :=
  ⟨exec_answers _ _ (by decide), exec_answers _ _ (by decide), ⟨_, _, rfl, rfl, by decide⟩, by decide⟩

theorem witness_ResponseDependsOnTheRequestAlone : ∃ t r,
    (asked wordRG2).BlockMovesNext ∧ (waitingFor guardWaiting wordRG2 [.block]).BlockMovesNext ∧
    (asked wordRG2).request = some { issuer := .outside, word := wordRG2 } ∧
    (waitingFor guardWaiting wordRG2 [.block]).request = some { issuer := .run 0, word := wordRG2 } ∧
    step (asked wordRG2) = .next t ∧ t.response = some { issuer := .outside, word := r } :=
  ⟨_, _, .inl rfl, .inr ⟨_, rfl⟩, rfl, rfl, rfl, rfl⟩

theorem witness_OperationsChangeOnlyTheTransaction :
    (∃ t, exec (.range 101#16 0#16 100#16) (waitingFor guardWaiting wordRG2 []) = .next t) ∧
    (waitingFor guardWaiting wordRG2 []).issuer = .run 0 ∧ (waitingFor guardWaiting wordRG2 []).issuer ≠ .run 1 ∧
    (waitingFor guardWaiting wordRG2 []).runs[0]? = some guardWaiting := ⟨⟨_, rfl⟩, by decide⟩

theorem witness_ListsOfAnotherLengthAreRefused : (tmpl1.take 8).length ≠ 9 ∧ (0#8 :: tmpl1).length ≠ 9 ∧
    ([] : List Byte).length ≠ 9 := by decide

theorem witness_SecondWriteValueWins : ∃ s₁ r₁, tmpl1.length = 9 ∧ exec (.writeValue tmpl1 300#16) State.reset = .next s₁ ∧
    s₁.response = some { issuer := State.reset.issuer, word := r₁ } :=
  ⟨_, _, rfl, exec_of_wellFormed _ _ (by decide), rfl⟩

theorem witness_BitStepHalvesThenAddsThePolynomial : (0#16).toNat % 2 = 0 ∧ (0xFFFE#16).toNat % 2 = 0 ∧
    (1#16).toNat % 2 = 1 ∧ (0xFFFF#16).toNat % 2 = 1 := by decide

theorem witness_ChecksumDependsOnEveryByte : tmpl1.length = 9 ∧ tmpl1[0]? ≠ some 0x00#8 ∧ tmpl1[8]? ≠ some 0x80#8 := by decide

theorem witness_ResetAbandonsOnlyTheOutstandingRequest :
    (waitingFor guardWaiting wordRG2 [.reset]).sched = .reset :: [] ∧
    (waitingFor guardWaiting wordRG2 [.reset]).runs[0]? = some guardWaiting ∧
    (waitingFor guardWaiting wordRG2 [.reset]).issuer = .run 0 ∧
    (waitingFor guardWaiting wordRG2 [.reset]).issuer ≠ .run 1 := by decide

theorem witness_RequestsAfterResetAreAnsweredAlike : decode wordRG2 = .ok (.range 101#16 0#16 100#16) ∧
    (waitingFor guardWaiting wordRG2 [.reset, .request wordRG2, .block, .request wordRG2, .block]).sched =
      .reset :: .request wordRG2 :: .block :: .request wordRG2 :: .block :: [] := by decide

theorem witness_EachRequestGetsOneResponseUnlessReset :
    ((asked wordRG2).request = some { issuer := .outside, word := wordRG2 } ∧ ∃ t, step (asked wordRG2) = .next t) ∧
    ((waitingFor guardWaiting wordRG2 [.run 0]).request = some { issuer := .run 0, word := wordRG2 } ∧
      ∃ t, step (waitingFor guardWaiting wordRG2 [.run 0]) = .next t) ∧
    (∃ t, step (waitingFor guardWaiting wordRG2 [.reset]) = .next t) ∧
    ((hosting guardReady []).request = none ∧ ∃ t, step (hosting guardReady []) = .next t) :=
  ⟨⟨rfl, _, rfl⟩, ⟨rfl, _, rfl⟩, ⟨_, rfl⟩, rfl, _, rfl⟩

theorem witness_BusyBlockMakesAHostWait :
    { hosting guardReady [.run 0] with request := (asked wordRG2).request }.sched = .run 0 :: [] ∧
    { hosting guardReady [.run 0] with request := (asked wordRG2).request }.runs[0]? = some guardReady ∧
    guardReady.phase = .ready ∧ guardReady.body[guardReady.k]? = some (.range (.name (nm "v")) (.lit 0#16) (.lit 100#16)) ∧
    (Stmt.range (.name (nm "v")) (.lit 0#16) (.lit 100#16)).instr? guardReady.env = some (.range 101#16 0#16 100#16) ∧
    { hosting guardReady [.run 0] with request := (asked wordRG2).request }.request =
      some { issuer := .outside, word := wordRG2 } := by decide

/-- A sequence that meets every condition of R74. -/
theorem rules_hold : SequenceRules [nm "v"] [.ret (nm "v")] := by
  have one : ∀ {j : Nat} {st : Stmt}, [Stmt.ret (nm "v")][j]? = some st → j = 0 ∧ st = .ret (nm "v") := by
    intro j st h
    match j, h with
    | 0, h => cases h; exact ⟨rfl, rfl⟩
    | j + 1, h => cases h
  refine ⟨by decide, ?_, ?_, ?_, ?_, by decide, ?_⟩
  · intro j st x need h hx
    obtain ⟨-, rfl⟩ := one h
    have hx : x = nm "v" := by simpa [Stmt.reads] using congrArg Prod.fst (List.mem_singleton.mp hx)
    exact ⟨.num, .inl ⟨by simp [hx], rfl⟩⟩
  · intro j st d κ κ' h hb; obtain ⟨-, rfl⟩ := one h; cases hb
  · intro j st x need κ h hx; obtain ⟨-, rfl⟩ := one h; cases List.mem_singleton.mp hx
  · intro j st bs h hb; obtain ⟨-, rfl⟩ := one h; cases hb
  · intro j st h; obtain ⟨rfl, rfl⟩ := one h; exact ⟨fun _ => rfl, fun _ => ⟨_, rfl⟩⟩

/-- An input named twice breaks the conditions. -/
theorem rules_refuse_same_input_twice : ¬ SequenceRules [nm "v", nm "v"] [.ret (nm "v")] :=
  fun h => absurd h.inputs_distinct (by decide)

/-- A `<dst>` that is an input is not fresh. -/
theorem rules_refuse_not_fresh : ¬ SequenceRules [nm "v"] [.packetize (nm "v") (.lit tmpl1), .ret (nm "v")] :=
  fun h => h.dst_fresh 0 _ (nm "v") .frame .num rfl rfl (.inl ⟨by decide, rfl⟩)

/-- A `<dst>` that the statement just before binds is not fresh. -/
theorem rules_refuse_bound_twice :
    ¬ SequenceRules [] [.packetize (nm "f") (.lit tmpl1), .packetize (nm "f") (.lit tmpl1), .ret (nm "f")] :=
  fun h => h.dst_fresh 1 _ (nm "f") .frame .frame rfl rfl (.inr ⟨0, _, by decide, rfl, rfl⟩)

/-- A run about to be checked, one that meets the conditions and two that do not. -/
theorem witness_SequencesAreCheckedBeforeTheyRun :
    ((hosting (Run.fresh [(nm "v", 101#16)] [.ret (nm "v")]) [.run 0]).sched = .run 0 :: [] ∧
      (hosting (Run.fresh [(nm "v", 101#16)] [.ret (nm "v")]) [.run 0]).runs[0]? =
        some (Run.fresh [(nm "v", 101#16)] [.ret (nm "v")]) ∧
      (Run.fresh [(nm "v", 101#16)] [.ret (nm "v")]).phase = .starting) ∧
    SequenceRules ([(nm "v", 101#16)].map Prod.fst) [.ret (nm "v")] ∧
    ¬ SequenceRules ([(nm "v", 101#16), (nm "v", 5#16)].map Prod.fst) [.ret (nm "v")] ∧
    ¬ SequenceRules ([(nm "v", 101#16)].map Prod.fst) [.packetize (nm "v") (.lit tmpl1), .ret (nm "v")] :=
  ⟨by decide, rules_hold, rules_refuse_same_input_twice, rules_refuse_not_fresh⟩

theorem witness_HostIssuesTheRequestOfItsStatement :
    (hosting guardReady [.run 0]).sched = .run 0 :: [] ∧ (hosting guardReady [.run 0]).runs[0]? = some guardReady ∧
    guardReady.phase = .ready ∧ guardReady.body[guardReady.k]? = some (.range (.name (nm "v")) (.lit 0#16) (.lit 100#16)) ∧
    (Stmt.range (.name (nm "v")) (.lit 0#16) (.lit 100#16)).instr? guardReady.env = some (.range 101#16 0#16 100#16) ∧
    (hosting guardReady [.run 0]).request = none := by decide

/-- The run of P1 that has received the response of its WRITE_VALUE. -/
def valueWritten : Run :=
  { inputs := [(nm "v", 300#16)], body := bodyP2, env := [(nm "v", .num 300#16)], k := 1,
    phase := .received (responseOf (.writeValue tmpl1 300#16)).pack }

/-- The run of P1 that has received its frame. -/
def framed : Run :=
  { inputs := [(nm "v", 300#16)], body := bodyP2, env := [(.temp 1, .template tmpl2), (nm "v", .num 300#16)], k := 2,
    phase := .received (responseOf (.packetize tmpl2)).pack }

/-- A run that has received a checksum. -/
def checksummed : Run :=
  { inputs := [], body := [.checksum (nm "c") (.lit tmpl2), .ret (nm "c")], env := [], k := 0,
    phase := .received (responseOf (.checksum tmpl2)).pack }

theorem witness_HostBindsTheResponse :
    ((hosting valueWritten [.run 0]).sched = .run 0 :: [] ∧ (hosting valueWritten [.run 0]).runs[0]? = some valueWritten ∧
      valueWritten.body[valueWritten.k]? = some (.writeValue (.temp 1) (.lit tmpl1) (.name (nm "v"))) ∧
      (Stmt.writeValue (.temp 1) (.lit tmpl1) (.name (nm "v"))).instr? valueWritten.env = some (.writeValue tmpl1 300#16)) ∧
    (framed.body[framed.k]? = some (.packetize (nm "f") (.name (.temp 1))) ∧
      (Stmt.packetize (nm "f") (.name (.temp 1))).instr? framed.env = some (.packetize tmpl2)) ∧
    (checksummed.body[checksummed.k]? = some (.checksum (nm "c") (.lit tmpl2)) ∧
      (Stmt.checksum (nm "c") (.lit tmpl2)).instr? checksummed.env = some (.checksum tmpl2)) :=
  ⟨⟨rfl, rfl, by decide, by decide⟩, by decide, by decide⟩

theorem witness_FailedGuardEndsTheSequence :
    (hosting { guardReady with phase := .received 1#128 } [.run 0]).sched = .run 0 :: [] ∧
    (hosting { guardReady with phase := .received 1#128 } [.run 0]).runs[0]? = some { guardReady with phase := .received 1#128 } ∧
    guardReady.body[guardReady.k]? = some (.range (.name (nm "v")) (.lit 0#16) (.lit 100#16)) ∧
    (1#128).getLsbD 0 = true ∧ (0#128).getLsbD 0 = false := by decide

/-- The run that is about to return its frame. -/
def returning : Run :=
  { inputs := [], body := [.ret (nm "f")], env := [(nm "f", .frame (List.replicate 11 0#8))], k := 0, phase := .ready }

theorem witness_ReturnEndsWithTheBoundValue :
    (hosting returning [.run 0]).sched = .run 0 :: [] ∧ (hosting returning [.run 0]).runs[0]? = some returning ∧
    returning.phase = .ready ∧ returning.body[returning.k]? = some (.ret (nm "f")) ∧
    lookup returning.env (nm "f") = some (.frame (List.replicate 11 0#8)) := by decide

theorem witness_EndedRunsIssueNothing : ∃ t, (hosting guardFailed [.run 0]).Inv ∧
    (hosting guardFailed [.run 0]).runs[0]? = some guardFailed ∧ guardFailed.phase.isOver = true ∧
    step (hosting guardFailed [.run 0]) = .next t ∧ (hosting guardFailed [.run 0]).sched = .run 0 :: [] ∧
    ∀ rest, (hosting guardFailed [.run 0]).sched ≠ .restart 0 :: rest :=
  ⟨_, inv_guardFailed _, rfl, rfl, rfl, rfl, fun _ h => by cases h⟩

theorem witness_AbandonedRunsMayRunAgain :
    (hosting { guardReady with phase := .abandoned } [.restart 0]).sched = .restart 0 :: [] ∧
    (hosting { guardReady with phase := .abandoned } [.restart 0]).runs[0]? = some { guardReady with phase := .abandoned } ∧
    (hosting guardFailed [.restart 0]).runs[0]? = some guardFailed ∧
    guardFailed.phase = .finished (.invalidRange 0#16 100#16) := by decide

theorem witness_SequencesStayAsLoaded : ∃ t, step (hosting guardReady [.load [] bodyP2]) = .next t ∧
    (hosting guardReady [.load [] bodyP2]).runs[0]? = some guardReady := ⟨_, rfl, rfl⟩

theorem witness_WellFormedSequencesDetermineAResult :
    sequenceWellFormed ([(nm "v", 101#16)].map Prod.fst) bodyP2 = true := by decide

theorem witness_EveryStepKeepsTheInvariant : ∃ t, (waitingFor guardWaiting wordRG2 [.block]).Inv ∧
    step (waitingFor guardWaiting wordRG2 [.block]) = .next t := ⟨_, inv_guardWaiting _, rfl⟩

/-- Three steps of P2: its guard is issued, performed and taken in. -/
theorem witness_InterleavingNeverChangesAResult : ∃ t, (hosting guardReady []).Inv ∧
    Host.Core.run core 3 (hosting guardReady []) = .next t ∧ t.runs[0]? = some guardFailed ∧
    guardFailed.phase = .finished (.invalidRange 0#16 100#16) := ⟨_, inv_guardReady _, rfl, by decide, rfl⟩

theorem witness_PipelineFailsClosed : (waitingFor guardWaiting wordRG2 []).Inv ∧
    (waitingFor guardWaiting wordRG2 []).runs[0]? = some guardWaiting ∧ guardWaiting.wellFormed = true ∧
    guardWaiting.body[0]? = some (.range (.name (nm "v")) (.lit 0#16) (.lit 100#16)) ∧
    (NumOperand.name (nm "v")).eval (inputEnv guardWaiting.inputs) = some 101#16 ∧
    (NumOperand.lit 100#16).eval (inputEnv guardWaiting.inputs) = some 100#16 ∧ (100#16).toNat < (101#16).toNat ∧
    ∀ j d t, j < 0 → guardWaiting.body[j]? ≠ some (.packetize d t) :=
  ⟨inv_guardWaiting _, rfl, by decide, rfl, rfl, rfl, by decide, fun j _ _ h => absurd h (Nat.not_lt_zero j)⟩

/-- Both ways out: a state that goes on, and one where an outside requester presented a reserved word. -/
theorem witness_OnlyOutsideRequestsAreRefused : (waitingFor guardWaiting wordRG2 []).Inv ∧ (asked 0x04#128).Inv :=
  ⟨inv_guardWaiting _, fun n c h => by simp [asked] at h, fun n w h => by cases h⟩

theorem witness_EveryRunEndsUnderTheDefaultOrder : (hosting guardReady []).Inv ∧ (hosting guardReady []).sched = [] ∧
    ∀ w, (hosting guardReady []).request ≠ some { issuer := .outside, word := w } :=
  ⟨inv_guardReady _, rfl, fun w h => by cases h⟩

theorem witness_LiteralsAreCheckedByTheAssembler : 65535 ≤ 65535 ∧ 65535 < 65536 ∧
    ([0, 0, 0, 0, 0, 0, 0, 0, 255].length = 9 ∧ ∀ b ∈ [0, 0, 0, 0, 0, 0, 0, 0, 255], b ≤ 255) ∧
    ([0, 0, 0, 0, 0, 0, 0, 0, 256].length = 9 ∧ ∃ b ∈ [0, 0, 0, 0, 0, 0, 0, 0, 256], 255 < b) ∧
    ([0, 0, 0, 0, 0, 0, 0, 0] : List Nat).length ≠ 9 := by decide

/-- For FramePacketizesTheWrittenValue and GuardedPipelineFramesOrReportsBounds; the value at the bound and above it. -/
theorem witness_assembled_pipelines : ([1, 2, 3, 4, 5, 6, 7, 0, 255].length = 9 ∧ ∀ b ∈ [1, 2, 3, 4, 5, 6, 7, 0, 255], b ≤ 255) ∧
    "f" ≠ "v" ∧ 65535 ≤ 65535 ∧ (65535#16).toNat ≤ 65535 ∧ ¬ (65535#16).toNat ≤ 65534 := by decide

end Sys2Proof.Tests
end

section
/-! What the block makes of the request word outstanding, when it moves next. -/
namespace Sys2Proof.Machine

section blockMovesNext
variable {s : State} {who : Requester} {w : ReqWord} (hb : s.BlockMovesNext)
  (hr : s.request = some { issuer := who, word := w })
include hb hr

/-- A request word that decodes is answered with the response of its operation. -/
theorem step_of_decode {i : Instr} (hd : decode w = .ok i) :
    step s = .next (s.afterMove.respond (responseOf i).pack) := by
  rw [step_of_blockMovesNext hb hr, serve_of_decode (s := s.afterMove) hr hd, exec_of_wellFormed i _ (wellFormed_of_decode hd)]

/-- A reserved request word is refused. -/
theorem step_of_decode_error {e : DecodeError} (hd : decode w = .error e) : step s = .refused (refusalOf e) := by
  rw [step_of_blockMovesNext hb hr, serve_of_error (s := s.afterMove) hr hd]

/-- When the block's step goes on, its request word decodes, and the next state is the one that shows the response. -/
theorem decode_of_step_next {t : State} (h : step s = .next t) :
    ∃ i, decode w = .ok i ∧ t = s.afterMove.respond (responseOf i).pack := by
  cases hd : decode w with
  | error e => rw [step_of_decode_error hb hr hd] at h; cases h
  | ok i => rw [step_of_decode hb hr hd] at h; injection h with h; exact ⟨i, rfl, h.symm⟩

end blockMovesNext

/-- The block's answer goes to the issuer of the request (30_encoding.md R50). -/
theorem respond_afterMove_response {s : State} {who : Requester} {w : ReqWord}
    (hr : s.request = some { issuer := who, word := w }) (r : RspWord) :
    (s.afterMove.respond r).response = some { issuer := who, word := r } := by
  rw [respond_response, afterMove_issuer, issuer_of_request hr]

/-- Settles O20: the request word decodes to one instruction, and the answer to it is the packed `responseOf` of that
instruction, in which no state occurs. -/
theorem responseDependsOnTheRequestAlone : Obligations.ResponseDependsOnTheRequestAlone := by
  intro s s' t who who' w r hb hb' hr hr' hstep hresp
  obtain ⟨i, hd, rfl⟩ := decode_of_step_next hb hr hstep
  have hword : r = (responseOf i).pack := by
    rw [respond_afterMove_response hr] at hresp
    cases hresp
    rfl
  exact ⟨_, step_of_decode hb' hr' hd, by rw [hword, respond_afterMove_response hr']⟩

end Sys2Proof.Machine
end

section
/-! The frame of the operations, the steps of the block on a decoded request, and the two byte orders (20_memory.md). -/
namespace Sys2Proof.Machine

/-- Returning a response leaves every run but the issuer's alone. -/
theorem respond_runs_of_ne {s : State} {n : Nat} (hn : s.issuer ≠ .run n) (r : RspWord) :
    (s.respond r).runs[n]? = s.runs[n]? := by
  rw [respond_runs, getElem?_updateRun_of_ne _ _ _ _ hn]

/-- The issuer's run receives the response (44_sequences.md R75). -/
theorem respond_runs_issuer {s : State} {n : Nat} {c : Run} (hn : s.issuer = .run n) (hc : s.runs[n]? = some c)
    (r : RspWord) : (s.respond r).runs[n]? = some (c.deliver r) := by
  rw [respond_runs, hn, getElem?_updateRun_self, hc, Option.map_some]

/-- Settles O21: whichever operation it is, the next state is the one that returns its response, so each clause is a fact
about `State.respond`. -/
theorem operationsChangeOnlyTheTransaction : Obligations.OperationsChangeOnlyTheTransaction := by
  intro i s t h
  obtain ⟨-, rfl⟩ := exec_next h
  refine ⟨respond_sched .., respond_request .., length_updateRun .., fun n hn => respond_runs_of_ne hn _, ?_⟩
  intro n c hn hc
  have hresp : (s.respond (responseOf i).pack).response = some { issuer := .run n, word := (responseOf i).pack } := by
    rw [respond_response, hn]
  exact ⟨_, _, respond_runs_issuer hn hc _, hresp, deliver_phase .., deliver_inputs .., deliver_body .., deliver_env ..,
    deliver_k ..⟩

/-- The two bytes of a 16-bit number give the number back. -/
theorem hiByte_shiftLeft_or_loByte (v : Half) : ((hiByte v).setWidth 16 <<< 8) ||| (loByte v).setWidth 16 = v := by
  apply BitVec.eq_of_getLsbD_eq
  intro j hj
  simp only [BitVec.getLsbD_or, BitVec.getLsbD_shiftLeft, BitVec.getLsbD_setWidth, getLsbD_hiByte, getLsbD_loByte]
  by_cases hlow : j < 8
  · simp [hlow, hj]
  · have hidx : 8 + (j - 8) = j := by omega
    have hhigh : j - 8 < 8 := by omega
    have hwide : j - 8 < 16 := by omega
    simp [hlow, hj, hidx, hhigh, hwide]

/-- The bytes of a frame after the template are the checksum, low byte first (20_memory.md R28). -/
theorem getElem?_frameOf_checksum {t : List Byte} (ht : t.length = 9) :
    (frameOf t)[9]? = some (loByte (crc16 t)) ∧ (frameOf t)[10]? = some (hiByte (crc16 t)) := by
  constructor <;> simp [frameOf, checksumOf, checksumBytes, ht]

/-- Settles O23: both fields hold the two bytes of one number, high byte first in the template and low byte first in the
frame, and the two bytes of a number give it back. -/
theorem mixedWidthViewsGiveTheNumbersBack : Obligations.MixedWidthViewsGiveTheNumbersBack := by
  intro tmpl value ht
  obtain ⟨hhi, hlo, -⟩ := getElem?_injectValue tmpl value ht
  obtain ⟨hcksLo, hcksHi⟩ := getElem?_frameOf_checksum ht
  refine ⟨⟨_, _, hhi, hlo, hiByte_shiftLeft_or_loByte value⟩, _, _, hcksLo, hcksHi, ?_⟩
  rw [BitVec.or_comm, hiByte_shiftLeft_or_loByte]

/-- A requester outside that presents a word to a busy block lets the block move instead, and its word waits (log 6). -/
theorem step_of_request_of_busy {s : State} {o : Outstanding} {w : ReqWord} {rest : List Move} (hr : s.request = some o)
    (hs : s.sched = .request w :: rest) : step s = s.serve := by
  rw [step_of_sched hs]
  simp only [State.scheduledTurn, State.presentTurn, hr]

/-- The block's own move, on the schedule, is to serve with that move used up. -/
theorem step_of_block {s : State} {rest : List Move} (hs : s.sched = .block :: rest) : step s = s.afterMove.serve := by
  rw [step_of_sched hs, State.afterMove, hs]
  rfl

/-- Settles O7: in each of the three cases the step is one of the block's servings, and serving a request that decodes is
`exec`. -/
theorem stepRunsTheDecodedRequest : Obligations.StepRunsTheDecodedRequest := by
  refine ⟨fun s o i hr hd => ⟨fun hb => ?_, fun w rest hs => ?_⟩, fun s rest hr hs => ?_⟩
  · rw [step_of_blockMovesNext hb hr, serve_of_decode (s := s.afterMove) hr hd]
  · rw [step_of_request_of_busy hr hs, serve_of_decode hr hd]
  · rw [step_of_block hs, serve_of_none (s := s.afterMove) hr]

/-- Settles O22: such a list makes each of the three instructions ill formed. -/
theorem listsOfAnotherLengthAreRefused : Obligations.ListsOfAnotherLengthAreRefused := by
  intro tmpl value s hlen
  have hbad : decide (IsTemplate tmpl) = false := decide_eq_false hlen
  exact ⟨exec_of_not_wellFormed (.writeValue tmpl value) s hbad, exec_of_not_wellFormed (.checksum tmpl) s hbad,
    exec_of_not_wellFormed (.packetize tmpl) s hbad⟩

end Sys2Proof.Machine
end

section
/-! The decoder on every request word: which words it reads and as what, and which it refuses (30_encoding.md R40, R43,
R49). -/
namespace Sys2Proof
open Machine

/-- The operation that a request word spells: its low byte selects the constructor, its fields are the operands
(30_encoding.md R49). -/
inductive Spells (w : ReqWord) : Instr → Prop
  | writeValue (hlow : w.extractLsb' 0 8 = 0x00#8) : Spells w (.writeValue (tmplField w) (valueField w))
  | checksum (hlow : w.extractLsb' 0 8 = 0x01#8) : Spells w (.checksum (tmplField w))
  | packetize (hlow : w.extractLsb' 0 8 = 0x02#8) : Spells w (.packetize (tmplField w))
  | range (hlow : w.extractLsb' 0 8 = 0x03#8) : Spells w (.range (valueField w) (minField w) (maxField w))

/-- The low byte of a request that spells an operation is that operation's code (30_encoding.md R41). -/
theorem Spells.lowByte {w : ReqWord} {i : Instr} (h : Spells w i) : w.extractLsb' 0 8 = (opcode i).setWidth 8 := by
  cases h <;> assumption

/-- The four operation codes are 0 to 3 (30_encoding.md R41). -/
theorem opcode_le_three (i : Instr) : (opcode i).toNat ≤ 3 := by
  cases i <;> simp [opcode]

/-- With the reserved bits 0, the low byte of a request is its operation code. -/
theorem lowByte_of_fields {w : ReqWord} {c : Nat} (hres : reservedField w = 0#5) (hop : (opField w).toNat = c) :
    w.extractLsb' 0 8 = BitVec.ofNat 8 c := by
  have hres' := congrArg BitVec.toNat hres
  simp only [reservedField, opField, BitVec.extractLsb'_toNat, BitVec.toNat_ofNat, Nat.shiftRight_eq_div_pow] at hres' hop
  apply BitVec.eq_of_toNat_eq
  simp only [BitVec.extractLsb'_toNat, BitVec.toNat_ofNat, Nat.shiftRight_eq_div_pow]
  omega

/-- A request with a reserved bit set is refused for it, whatever its operation code (log 8). -/
theorem decode_of_reservedField_ne {w : ReqWord} (hres : reservedField w ≠ 0#5) : decode w = .error .reservedBits :=
  if_pos hres

/-- A request with a reserved operation code and no reserved bit set is refused for the code. -/
theorem decode_of_reservedOp {w : ReqWord} (hres : reservedField w = 0#5) (hop : 4 ≤ (opField w).toNat) :
    decode w = .error .reservedOp := by
  unfold decode
  rw [if_neg (not_not.2 hres)]
  split
  on_goal 5 => rfl
  all_goals omega

/-- The decoder reads exactly what the word spells. -/
theorem decode_eq_ok_iff {w : ReqWord} {i : Instr} : decode w = .ok i ↔ Spells w i := by
  constructor
  · intro h
    unfold decode at h
    split at h
    · cases h
    · rename_i hres
      have hlow {c : Nat} : (opField w).toNat = c → w.extractLsb' 0 8 = BitVec.ofNat 8 c :=
        lowByte_of_fields (not_not.1 hres)
      split at h <;> cases h
      · exact .writeValue (hlow ‹_›)
      · exact .checksum (hlow ‹_›)
      · exact .packetize (hlow ‹_›)
      · exact .range (hlow ‹_›)
  · intro h
    have hdec (c : Nat) (hc : c < 8) (hlow : w.extractLsb' 0 8 = BitVec.ofNat 8 c) := fields_of_lowByte w c hc hlow
    cases h with
    | writeValue hlow => simp [decode, hdec 0 (by decide) hlow]
    | checksum hlow => simp [decode, hdec 1 (by decide) hlow]
    | packetize hlow => simp [decode, hdec 2 (by decide) hlow]
    | range hlow => simp [decode, hdec 3 (by decide) hlow]

/-- A canonical request word decodes to the instruction it was made from: each field of the packed word reads back. -/
theorem decode_encode (i : Instr) (h : i.wellFormed = true) : decode (encode i) = .ok i := by
  cases i with
  | writeValue t v =>
    have ht : IsTemplate t := of_decide_eq_true h
    simp [decode, encode, tmplField_packRequest _ t _ _ _ ht, valueField_packRequest _ t _ _ _ ht.le]
  | checksum t => simp [decode, encode, tmplField_packRequest _ t _ _ _ (of_decide_eq_true h)]
  | packetize t => simp [decode, encode, tmplField_packRequest _ t _ _ _ (of_decide_eq_true h)]
  | range v lo hi =>
    simp [decode, encode, valueField_packRequest, minField_packRequest, maxField_packRequest]

/-- Settles O3: packing and reading back, field by field, for each operation. -/
theorem decodeInvertsEncode : Obligations.DecodeInvertsEncode := decode_encode

/-- Settles O1: the decoder reads what the word spells, and a word that spells something has a low byte of at most 3. -/
theorem decodeIsSelectedByTheLowByte : Obligations.DecodeIsSelectedByTheLowByte := by
  intro w
  refine ⟨tmplField w, isTemplate_tmplField w, ?_, fun h => decode_eq_ok_iff.2 (.writeValue h),
    fun h => decode_eq_ok_iff.2 (.checksum h), fun h => decode_eq_ok_iff.2 (.packetize h),
    fun h => decode_eq_ok_iff.2 (.range h), ?_⟩
  · intro i b hi j hj
    rw [tmplField, getElem?_byteFields] at hi
    split at hi <;> cases hi
    rw [getLsbD_byteField]
    simp [hj]
  · intro hgt
    cases hd : decode w with
    | error e => exact ⟨e, rfl⟩
    | ok i =>
      have hlow := congrArg BitVec.toNat (decode_eq_ok_iff.1 hd).lowByte
      have hcode := opcode_le_three i
      rw [BitVec.toNat_setWidth_of_le (by decide)] at hlow
      omega

/-- Settles O6: the decoder computes on each of the six words. -/
theorem sampleRequestWordsDecode : Obligations.SampleRequestWordsDecode := by
  unfold Obligations.SampleRequestWordsDecode
  decide

end Sys2Proof
end

section
/-! Packing the fields of a request word again: bit by bit, the word comes back where its operation uses it. -/
namespace Sys2Proof
open Machine

/-- A bit of a 16-bit field, by its place in the word. -/
theorem getLsbD_halfField_sub (w : BitVec 128) (lo j : Nat) :
    (decide (lo ≤ j) && (halfField w lo).getLsbD (j - lo)) =
      (decide (lo ≤ j) && decide (j < lo + 16) && w.getLsbD j) := by
  by_cases hj : lo ≤ j
  · have hidx : lo + (j - lo) = j := by omega
    have hlt : j - lo < 16 ↔ j < lo + 16 := by omega
    simp [getLsbD_halfField, hj, hidx, hlt]
  · simp [hj]

/-- A bit of the template field, by its place in the word. -/
theorem getLsbD_tmplField_sub (w : ReqWord) (j : Nat) :
    (decide (8 ≤ j) && (((tmplField w)[(j - 8) / 8]?).getD 0#8).getLsbD ((j - 8) % 8)) =
      (decide (8 ≤ j) && decide (j < 80) && w.getLsbD j) := by
  by_cases hj : 8 ≤ j
  · have hidx : 8 * ((j - 8) / 8) + 8 + (j - 8) % 8 = j := by omega
    have hmod : (j - 8) % 8 < 8 := by omega
    by_cases hlt : j < 80
    · have hbyte : (j - 8) / 8 < 9 := by omega
      rw [tmplField, getElem?_byteFields, if_pos hbyte, Option.getD_some, getLsbD_byteField, hidx]
      simp [hlt, hmod]
    · have hbyte : ¬ (j - 8) / 8 < 9 := by omega
      rw [tmplField, getElem?_byteFields, if_neg hbyte]
      simp [hlt]
  · simp [hj]

/-- A bit of the operation code, by its place in a word with that low byte. -/
theorem getLsbD_op_of_lowByte {w : ReqWord} {op : BitVec 3} (hlow : w.extractLsb' 0 8 = op.setWidth 8) (j : Nat) :
    op.getLsbD j = (decide (j < 8) && w.getLsbD j) := by
  by_cases hj : j < 8
  · have hbit := congrArg (·.getLsbD j) hlow
    simpa [hj] using hbit.symm
  · simp [hj, BitVec.getLsbD_of_ge op j (by omega)]

/-- The bits of the request word that an operation uses (the "used by" column of 30_encoding.md R39). -/
def usesBit : Instr → Nat → Bool
  | .writeValue _ _, j => decide (j < 96)
  | .checksum _, j => decide (j < 80)
  | .packetize _, j => decide (j < 80)
  | .range _ _ _, j => decide (j < 8) || decide (80 ≤ j)

/-- The bits an operation uses, by its code. -/
theorem usesBit_of_opcode (i : Instr) (j : Nat) :
    (opcode i = 0#3 → usesBit i j = decide (j < 96)) ∧
      (opcode i = 1#3 ∨ opcode i = 2#3 → usesBit i j = decide (j < 80)) ∧
      (opcode i = 3#3 → usesBit i j = (decide (j < 8) || decide (80 ≤ j))) := by
  cases i <;> simp [opcode, usesBit]

/-- Encoding what a word spells keeps the bits its operation uses and clears the others (30_encoding.md R42). -/
theorem Spells.getLsbD_encode {w : ReqWord} {i : Instr} (h : Spells w i) {j : Nat} (hj : j < 128) :
    (encode i).getLsbD j = (usesBit i j && w.getLsbD j) := by
  have hop := getLsbD_op_of_lowByte h.lowByte j
  cases h
  -- In every case the packed word is a disjunction of fields of `w`, each masked to its own bit range.
  all_goals
    simp only [opcode] at hop
    simp only [encode, usesBit, getLsbD_packRequest _ _ _ _ _ _ hj, hop, getLsbD_tmplField_sub, valueField, minField,
      maxField, getLsbD_halfField_sub]
    grind

/-- An operation that uses exactly the low `n` bits of its word encodes to these bits alone. -/
theorem Spells.encode_eq_setWidth {w : ReqWord} {i : Instr} {n : Nat} (h : Spells w i)
    (hused : ∀ j, usesBit i j = decide (j < n)) : encode i = (w.extractLsb' 0 n).setWidth 128 := by
  apply BitVec.eq_of_getLsbD_eq
  intro j hj
  rw [h.getLsbD_encode hj, hused]
  simp [hj]

/-- Settles O4: the encoding keeps the bits its operation uses, and these are the bits of the words stated. -/
theorem encodeOfDecodeClearsUnusedFields : Obligations.EncodeOfDecodeClearsUnusedFields := by
  intro w i hd
  have hspells := decode_eq_ok_iff.1 hd
  refine ⟨wellFormed_of_decode hd, fun hop => ?_, fun hop => ?_, fun hop => ?_⟩
  · exact hspells.encode_eq_setWidth fun j => (usesBit_of_opcode i j).1 hop
  · exact hspells.encode_eq_setWidth fun j => (usesBit_of_opcode i j).2.1 hop
  · apply BitVec.eq_of_getLsbD_eq
    intro j hj
    rw [hspells.getLsbD_encode hj, (usesBit_of_opcode i j).2.2 hop, BitVec.getLsbD_or, getLsbD_field _ _ _ hj]
    by_cases h80 : 80 ≤ j
    · have hidx : 80 + (j - 80) = j := by omega
      have hlt : j - 80 < 48 := by omega
      simp [h80, hidx, hlt]
    · simp [h80, hj]

/-- A field of which an operation uses no bit is 0 in its canonical request word (30_encoding.md R42). -/
theorem extractLsb'_encode_unused {i : Instr} {lo len : Nat} (hw : i.wellFormed = true) (hlen : lo + len ≤ 128)
    (hunused : ∀ j, lo ≤ j → j < lo + len → usesBit i j = false) : (encode i).extractLsb' lo len = 0#len := by
  apply extractLsb'_eq_of_bits
  intro j hj
  rw [(decode_eq_ok_iff.1 (decode_encode i hw)).getLsbD_encode (by omega), hunused _ (by omega) (by omega)]
  simp

end Sys2Proof
end

section
/-! The block on reserved requests, and requests that differ in fields their operation does not use (30_encoding.md R42,
R43). -/
namespace Sys2Proof
open Machine

/-- Only a reserved operation code or a reserved bit keeps a request from decoding (30_encoding.md R43). -/
theorem exists_decode_of_fields {w : ReqWord} (hres : reservedField w = 0#5) (hop : (opField w).toNat ≤ 3) :
    ∃ i, decode w = .ok i := by
  interval_cases hcode : (opField w).toNat
  · exact ⟨_, decode_eq_ok_iff.2 (.writeValue (lowByte_of_fields hres hcode))⟩
  · exact ⟨_, decode_eq_ok_iff.2 (.checksum (lowByte_of_fields hres hcode))⟩
  · exact ⟨_, decode_eq_ok_iff.2 (.packetize (lowByte_of_fields hres hcode))⟩
  · exact ⟨_, decode_eq_ok_iff.2 (.range (lowByte_of_fields hres hcode))⟩

/-- Settles O5: the block refuses what the decoder refuses, under the decoder's name for it, and performs the rest. -/
theorem exactlyReservedRequestsAreRefused : Obligations.ExactlyReservedRequestsAreRefused := by
  intro s who w hb hr
  refine ⟨fun hres => step_of_decode_error hb hr (decode_of_reservedField_ne hres),
    fun hres hop => step_of_decode_error hb hr (decode_of_reservedOp hres hop), fun hres hop => ?_⟩
  obtain ⟨i, hd⟩ := exists_decode_of_fields hres hop
  exact ⟨_, step_of_decode hb hr hd⟩

/-- Words that agree in a field agree in every field inside it. -/
theorem extractLsb'_congr_of_subfield {w w' : BitVec 128} {lo len lo' len' : Nat}
    (h : w.extractLsb' lo len = w'.extractLsb' lo len) (hlo : lo ≤ lo' := by omega)
    (hhi : lo' + len' ≤ lo + len := by omega) :
    w.extractLsb' lo' len' = w'.extractLsb' lo' len' := by
  apply extractLsb'_eq_of_bits
  intro j hj
  have hidx : lo + (lo' + j - lo) = lo' + j := by omega
  have hbit := congrArg (·.getLsbD (lo' + j - lo)) h
  simp only [getLsbD_extractLsb'_of_lt _ lo len (lo' + j - lo) (by omega), hidx] at hbit
  rw [getLsbD_extractLsb'_of_lt _ _ _ _ hj, hbit]

/-- Words that agree in bits 79:8 hold the same template. -/
theorem tmplField_congr {w w' : ReqWord} (h : w.extractLsb' 8 72 = w'.extractLsb' 8 72) : tmplField w = tmplField w' := by
  apply List.map_congr_left
  intro i hi
  have hi9 : i < 9 := List.mem_range.1 hi
  exact extractLsb'_congr_of_subfield h

/-- Two words agree in the low byte and in every field that the operation it selects uses (30_encoding.md R39, R42). -/
def AgreeInUsedFields (w w' : ReqWord) : Prop :=
  (w.extractLsb' 0 8 = 0x00#8 ∧ w.extractLsb' 0 96 = w'.extractLsb' 0 96) ∨
  (w.extractLsb' 0 8 = 0x01#8 ∧ w.extractLsb' 0 80 = w'.extractLsb' 0 80) ∨
  (w.extractLsb' 0 8 = 0x02#8 ∧ w.extractLsb' 0 80 = w'.extractLsb' 0 80) ∨
  (w.extractLsb' 0 8 = 0x03#8 ∧ w.extractLsb' 0 8 = w'.extractLsb' 0 8 ∧ w.extractLsb' 80 48 = w'.extractLsb' 80 48)

/-- Such words spell the same operation. -/
theorem AgreeInUsedFields.spells {w w' : ReqWord} (h : AgreeInUsedFields w w') : ∃ i, Spells w i ∧ Spells w' i := by
  rcases h with ⟨hlow, h⟩ | ⟨hlow, h⟩ | ⟨hlow, h⟩ | ⟨hlow, hlow', h⟩
  · refine ⟨_, .writeValue hlow, ?_⟩
    have hvalue : valueField w = valueField w' := extractLsb'_congr_of_subfield h
    rw [tmplField_congr (extractLsb'_congr_of_subfield h), hvalue]
    exact .writeValue ((extractLsb'_congr_of_subfield h).symm.trans hlow)
  · refine ⟨_, .checksum hlow, ?_⟩
    rw [tmplField_congr (extractLsb'_congr_of_subfield h)]
    exact .checksum ((extractLsb'_congr_of_subfield h).symm.trans hlow)
  · refine ⟨_, .packetize hlow, ?_⟩
    rw [tmplField_congr (extractLsb'_congr_of_subfield h)]
    exact .packetize ((extractLsb'_congr_of_subfield h).symm.trans hlow)
  · refine ⟨_, .range hlow, ?_⟩
    have hvalue : valueField w = valueField w' := extractLsb'_congr_of_subfield h
    have hmin : minField w = minField w' := extractLsb'_congr_of_subfield h
    have hmax : maxField w = maxField w' := extractLsb'_congr_of_subfield h
    rw [hvalue, hmin, hmax]
    exact .range (hlow'.symm.trans hlow)

/-- The block's step on a request that decodes: of the word nothing is left but the response of its operation. -/
theorem step_withRequest {s : State} {w : ReqWord} {i : Instr} (who : Requester) (hb : s.BlockMovesNext)
    (hd : decode w = .ok i) : step { s with request := some { issuer := who, word := w } } =
      .next { request := none, response := some { issuer := who, word := (responseOf i).pack },
              runs := updateRun who (Run.deliver (responseOf i).pack) s.runs, sched := s.sched.tail } :=
  step_of_decode (s := { s with request := some { issuer := who, word := w } }) hb rfl hd

/-- Settles O2: two such words spell one operation, so the block answers them alike; and the stated fields are those of which
the operation uses no bit. -/
theorem unusedRequestFieldsAreIgnored : Obligations.UnusedRequestFieldsAreIgnored := by
  refine ⟨fun s who w w' hb hagree => ?_, fun t v ht => ?_, fun t ht => ?_, fun t ht => ?_, fun v lo hi => ?_⟩
  · obtain ⟨i, hw, hw'⟩ := AgreeInUsedFields.spells hagree
    have hd := decode_eq_ok_iff.2 hw
    have hd' := decode_eq_ok_iff.2 hw'
    exact ⟨⟨i, hd⟩, hd'.trans hd.symm, (step_withRequest who hb hd).trans (step_withRequest who hb hd').symm⟩
  · exact extractLsb'_encode_unused (decide_eq_true ht) (by omega) fun j hlo _ => decide_eq_false (by omega)
  · exact extractLsb'_encode_unused (decide_eq_true ht) (by omega) fun j hlo _ => decide_eq_false (by omega)
  · exact extractLsb'_encode_unused (decide_eq_true ht) (by omega) fun j hlo _ => decide_eq_false (by omega)
  · refine extractLsb'_encode_unused rfl (by omega) fun j hlo hhi => ?_
    have h8 : ¬ j < 8 := by omega
    have h80 : ¬ 80 ≤ j := by omega
    simp [usesBit, h8, h80]

end Sys2Proof
end

section
/-! The response word outside its valid fields (30_encoding.md R46, R47). -/
namespace Sys2Proof.Machine

/-- A packed response is 0 between its status and its first data byte, and from its last data byte to the error payload. -/
theorem getLsbD_pack_undefined {r : Response} {j : Nat} (hstatus : 1 ≤ j) (hpayload : j < 96)
    (hdata : j < 8 ∨ 8 * r.data.length + 8 ≤ j) : r.pack.getLsbD j = false := by
  have hstart : ¬ 96 ≤ j := by omega
  have hstop : ¬ 112 ≤ j := by omega
  rw [getLsbD_pack r j (by omega), BitVec.getLsbD_of_ge r.status.code j hstatus]
  rcases hdata with hlow | hhigh
  · have hbyte : ¬ 8 ≤ j := by omega
    simp [hbyte, hstart, hstop]
  · rw [getD_getLsbD_high r.data j hhigh]
    simp [hstart, hstop]

/-- A field of a packed response that lies between the last data byte and the error payload is 0. -/
theorem extractLsb'_pack_after_data {r : Response} {lo len : Nat} (hdata : 8 * r.data.length + 8 ≤ lo)
    (hpayload : lo + len ≤ 96) : r.pack.extractLsb' lo len = 0#len := by
  apply extractLsb'_eq_of_bits
  intro j hj
  rw [getLsbD_pack_undefined (by omega) (by omega) (.inr (by omega)), BitVec.getLsbD_zero]

/-- How many data bytes are valid in the response of WRITE_VALUE, CHECKSUM and RANGE (30_encoding.md R46). -/
theorem length_data_of_opcode {i : Instr} (hw : i.wellFormed = true) :
    (opcode i = 0#3 → (responseOf i).data.length = 9) ∧ (opcode i = 1#3 → (responseOf i).data.length = 2) ∧
      (opcode i = 3#3 → (responseOf i).data.length = 0) := by
  cases i with
  | writeValue t v =>
    have ht : t.length = 9 := of_decide_eq_true hw
    simp [opcode, responseOf, writeValueResponse, ht]
  | checksum t => simp [opcode, responseOf, checksumResponse]
  | packetize t => simp [opcode]
  | range v lo hi =>
    by_cases hv : hi < v
    · simp [opcode, responseOf, rangeResponse_of_lt hv]
    · simp [opcode, responseOf, rangeResponse_of_not_lt hv]

/-- An OK response carries no error payload (30_encoding.md R47). -/
theorem responseOf_payload_of_ok {i : Instr} (hok : (responseOf i).status = .ok) :
    (responseOf i).start = 0#16 ∧ (responseOf i).stop = 0#16 := by
  cases i with
  | writeValue t v => exact ⟨rfl, rfl⟩
  | checksum t => exact ⟨rfl, rfl⟩
  | packetize t => exact ⟨rfl, rfl⟩
  | range v lo hi =>
    by_cases hv : hi < v
    · simp [responseOf, rangeResponse_of_lt hv] at hok
    · simp [responseOf, rangeResponse_of_not_lt hv]

/-- The word an operation answers is the packed response of that operation. -/
theorem word_of_exec {i : Instr} {s t : State} {r : RspWord} (h : exec i s = .next t)
    (hr : t.response = some { issuer := s.issuer, word := r }) : r = (responseOf i).pack := by
  obtain ⟨-, rfl⟩ := exec_next h
  rw [respond_response] at hr
  cases hr
  rfl

/-- Settles O19: the word answered is the packed `responseOf`, whose undefined bits are those beside its data bytes and, on
OK, its empty error payload. -/
theorem undefinedResponseBitsAreZero : Obligations.UndefinedResponseBitsAreZero := by
  intro i s t r h hr
  obtain rfl := word_of_exec h hr
  have hw := (exec_next h).1
  obtain ⟨hwrite, hcks, hrange⟩ := length_data_of_opcode hw
  refine ⟨?_, fun hop => ?_, fun hop => ?_, fun hop => ?_, fun hok => ?_, fun s' t' r' h' hr' => word_of_exec h' hr'⟩
  · apply extractLsb'_eq_of_bits
    intro j hj
    rw [getLsbD_pack_undefined (by omega) (by omega) (.inl (by omega)), BitVec.getLsbD_zero]
  · exact extractLsb'_pack_after_data (by rw [hwrite hop]) (by omega)
  · exact extractLsb'_pack_after_data (by rw [hcks hop]) (by omega)
  · exact extractLsb'_pack_after_data (by rw [hrange hop]) (by omega)
  · have hlen := length_data_responseOf i hw
    rw [rspStart_pack _ hlen, rspEnd_pack _ hlen]
    apply responseOf_payload_of_ok
    rw [rspStatus_pack] at hok
    cases hs : (responseOf i).status with
    | ok => rfl
    | invalidRange => simp [hs] at hok

end Sys2Proof.Machine
end

section
/-! One request at a time (30_encoding.md R50): what each move of a step makes of the transaction, and what a host does
while the block is busy. -/
namespace Sys2Proof.Machine

/-- The move of a host leaves the transaction alone, or begins one when the block is free. -/
theorem hostMove_transaction (s : State) (n : Nat) :
    ((s.hostMove n).request = s.request ∧ (s.hostMove n).response = s.response) ∨
      (s.request = none ∧ (s.hostMove n).response = none) := by
  cases hostMove_cases s n with
  | waited ht => rw [ht]; exact .inl ⟨rfl, rfl⟩
  | started c _ _ ht => rw [ht]; exact .inl ⟨rfl, rfl⟩
  | refused c _ _ _ ht => rw [ht]; exact .inl ⟨rfl, rfl⟩
  | returned c _ _ x v _ _ ht => rw [ht]; exact .inl ⟨rfl, rfl⟩
  | issued c _ _ st i _ _ hfree ht => rw [ht]; exact .inr ⟨hfree, rfl⟩
  | received c _ r _ ht => rw [ht]; exact .inl ⟨rfl, rfl⟩

/-- Settles O33: of all a step can do, only the block's answer and a reset end the transaction of an outstanding request, and
with none outstanding a step shows no new response. -/
theorem eachRequestGetsOneResponseUnlessReset : Obligations.EachRequestGetsOneResponseUnlessReset := by
  constructor
  · intro s t o hr h
    cases step_next h with
    | idle sc ht => exact .inl (by rw [ht]; exact ⟨hr, rfl⟩)
    | served sc o' i hr' hd ht =>
      obtain rfl : o' = o := Option.some.inj (hr'.symm.trans hr)
      refine .inr (.inl ⟨by rw [ht, respond_request], i, hd, ?_⟩)
      rw [ht, respond_response, issuer_of_request (s := s.withSched sc) hr]
    | host sc n ht =>
      rcases hostMove_transaction (s.withSched sc) n with ⟨hreq, hrsp⟩ | ⟨hfree, -⟩
      · exact .inl (by rw [ht, hreq, hrsp]; exact ⟨hr, rfl⟩)
      · cases hr.symm.trans hfree
    | asked sc w _ hfree _ => cases hr.symm.trans hfree
    | loaded sc inputs body _ ht => exact .inl (by rw [ht]; exact ⟨hr, rfl⟩)
    | restarted sc n _ ht => exact .inl (by rw [ht]; exact ⟨hr, rfl⟩)
    | wasReset sc hs ht => exact .inr (.inr (by rw [ht]; exact ⟨rfl, rfl, sc, hs⟩))
  · intro s t hfree h
    cases step_next h with
    | idle sc ht => exact .inl (by rw [ht])
    | served sc o i hr _ _ => cases hfree.symm.trans hr
    | host sc n ht =>
      rw [ht]
      exact (hostMove_transaction (s.withSched sc) n).imp And.right And.right
    | asked sc w _ _ ht => exact .inr (by rw [ht, issue_response])
    | loaded sc inputs body _ ht => exact .inl (by rw [ht, load_response])
    | restarted sc n _ ht => exact .inl (by rw [ht, restart_response])
    | wasReset sc _ ht => exact .inr (by rw [ht, takeReset_response])

/-- A host at an operation statement has no move to make while a request is outstanding (log 6). -/
theorem hostMove_of_busy {s : State} {n : Nat} {c : Run} {st : Stmt} {i : Instr} {o : Outstanding}
    (hc : s.runs[n]? = some c) (hp : c.phase = .ready) (hb : c.body[c.k]? = some st) (hi : st.instr? c.env = some i)
    (hr : s.request = some o) : s.hostMove n = s := by
  have hstmt : s.runStmt n c st = s := by
    cases st with
    | ret x => cases hi
    | _ => simp [State.runStmt, hi, hr]
  simpa only [State.hostMove, hc, hp, hb] using hstmt

/-- Settles O34: the schedule names a host that waits. -/
theorem busyBlockMakesAHostWait : Obligations.BusyBlockMakesAHostWait := by
  intro s n rest c st i o hs hc hp hb hi hr
  rw [step_of_sched hs]
  exact congrArg _ (hostMove_of_busy (s := s.withSched rest) hc hp hb hi hr)

end Sys2Proof.Machine
end

section
/-! The assembler on literals (30_encoding.md R51) and on FRAME (R53). -/
namespace Sys2Proof.Machine

/-- A template literal of nine bytes is taken as it is. -/
theorem toTmpl_of_bytes {bs : List Nat} (hlen : bs.length = 9) (hbytes : ∀ b ∈ bs, b ≤ 255) :
    (SrcOperand.bytes bs).toTmpl = .ok (.lit (bs.map (BitVec.ofNat 8))) := by
  have hall : bs.all (fun b => decide (b < 2 ^ 8)) = true := by
    rw [List.all_eq_true]
    exact fun b hb => decide_eq_true (Nat.lt_succ_of_le (hbytes b hb))
  rw [SrcOperand.toTmpl, if_neg (not_not.2 hlen), if_pos hall]

/-- A template literal of nine numbers, one of them no byte, is out of range. -/
theorem toTmpl_of_large {bs : List Nat} (hlen : bs.length = 9) (hlarge : ∃ b ∈ bs, 255 < b) :
    (SrcOperand.bytes bs).toTmpl = .error .literalRange := by
  have hall : bs.all (fun b => decide (b < 2 ^ 8)) = false := by
    obtain ⟨b, hb, hgt⟩ := hlarge
    rw [List.all_eq_false]
    exact ⟨b, hb, fun hlt => absurd (of_decide_eq_true hlt) (by omega)⟩
  rw [SrcOperand.toTmpl, if_neg (not_not.2 hlen), if_neg (Bool.eq_false_iff.1 hall)]

/-- Bytes written as numbers read back as those numbers. -/
theorem map_toNat_ofNat {bs : List Nat} (hbytes : ∀ b ∈ bs, b ≤ 255) :
    (bs.map (BitVec.ofNat 8)).map BitVec.toNat = bs := by
  rw [List.map_map]
  refine (List.map_congr_left fun b hb => ?_).trans (List.map_id bs)
  exact Nat.mod_eq_of_lt (Nat.lt_succ_of_le (hbytes b hb))

/-- Settles O50: the tests of the assembler are the bounds stated, and a number below the bound of its field reads back. -/
theorem literalsAreCheckedByTheAssembler : Obligations.LiteralsAreCheckedByTheAssembler := by
  refine ⟨fun n => ⟨fun hn => ?_, fun hn => ?_⟩,
    fun bs => ⟨fun hlen hbytes => ?_, toTmpl_of_large, fun hlen => if_pos hlen⟩⟩
  · have hlt : n < 2 ^ 16 := by omega
    exact ⟨BitVec.ofNat 16 n, if_pos hlt, Nat.mod_eq_of_lt hlt⟩
  · exact if_neg (by omega)
  · exact ⟨_, toTmpl_of_bytes hlen hbytes, map_toNat_ofNat hbytes⟩

/-- `FRAME d, t, v` at the head of a source, followed by `RETURN d`, written out (30_encoding.md R53). -/
def frameValueBody (t : List Byte) (d v : String) : List Stmt :=
  [.writeValue (.temp 0) (.lit t) (.name (.user v)), .packetize (.user d) (.name (.temp 0)), .ret (.user d)]

/-- `FRAME d, t` followed by `RETURN d`, written out (30_encoding.md R53). -/
def frameBody (t : List Byte) (d : String) : List Stmt := [.packetize (.user d) (.lit t), .ret (.user d)]

section assembled
variable {bs : List Nat} (hlen : bs.length = 9) (hbytes : ∀ b ∈ bs, b ≤ 255)
include hlen hbytes

/-- FRAME with a value expands to WRITE_VALUE into a fresh name and PACKETIZE of that name. -/
theorem assemble_frameValue (d v : String) :
    assemble [.frameValue d (.bytes bs) (.name v), .ret d] = .ok (frameValueBody (bs.map (BitVec.ofNat 8)) d v) := by
  simp [assemble, assembleFrom, SrcStmt.expand, asmWriteValue, SrcOperand.toNum, toTmpl_of_bytes hlen hbytes, Except.map,
    frameValueBody]

/-- FRAME without a value expands to PACKETIZE. -/
theorem assemble_frame (d : String) :
    assemble [.frame d (.bytes bs), .ret d] = .ok (frameBody (bs.map (BitVec.ofNat 8)) d) := by
  simp [assemble, assembleFrom, SrcStmt.expand, toTmpl_of_bytes hlen hbytes, Except.map, frameBody]

end assembled

section bodies
variable {t : List Byte} {d v : String} (ht : t.length = 9)
include ht

/-- The body of FRAME with a value passes the checks of 44_sequences.md R74. -/
theorem sequenceWellFormed_frameValueBody (hdv : d ≠ v) : sequenceWellFormed [.user v] (frameValueBody t d v) = true := by
  simp [sequenceWellFormed, frameValueBody, bodyChecks, TmplOperand.checks, NumOperand.checks, fresh, lookup, ht, hdv.symm]

/-- The body of FRAME without a value passes the checks of 44_sequences.md R74. -/
theorem sequenceWellFormed_frameBody (hdv : d ≠ v) : sequenceWellFormed [.user v] (frameBody t d) = true := by
  simp [sequenceWellFormed, frameBody, bodyChecks, TmplOperand.checks, fresh, lookup, ht, hdv.symm]

/-- FRAME with a value ends with the frame of the template that holds the value (42_packetizer.md R68). -/
theorem sequenceResult_frameValueBody (x : Half) : sequenceResult [(.user v, x)] (frameValueBody t d v) =
    some (.ok (.frame (frameOf (injectValue t x)))) := by
  simp [sequenceResult, frameValueBody, inputEnv, resultFrom, Stmt.effect, TmplOperand.eval, NumOperand.eval, lookup, ht]

/-- FRAME without a value ends with the frame of the template (42_packetizer.md R68). -/
theorem sequenceResult_frameBody (x : Half) :
    sequenceResult [(.user v, x)] (frameBody t d) = some (.ok (.frame (frameOf t))) := by
  simp [sequenceResult, frameBody, inputEnv, resultFrom, Stmt.effect, TmplOperand.eval, lookup, ht]

end bodies

/-- Settles O51: what each form of FRAME expands to passes the checks and ends with the frame stated. -/
theorem framePacketizesTheWrittenValue : Obligations.FramePacketizesTheWrittenValue := by
  intro bs d v x hlen hbytes hdv
  have ht : (bs.map (BitVec.ofNat 8)).length = 9 := (List.length_map _).trans hlen
  exact ⟨⟨_, assemble_frameValue hlen hbytes d v, sequenceWellFormed_frameValueBody ht hdv,
      sequenceResult_frameValueBody ht x⟩,
    _, assemble_frame hlen hbytes d, sequenceWellFormed_frameBody ht hdv, sequenceResult_frameBody ht x⟩

end Sys2Proof.Machine
end

section
/-! WRITE_VALUE (40_value_writer.md), from operands to response word, and the words of OK responses. -/
namespace Sys2Proof.Machine

/-- The status byte of an OK response is 0 (30_encoding.md R44, R45). -/
theorem statusByte_pack_okResponse (d : List Byte) : (okResponse d).pack.extractLsb' 0 8 = 0#8 := by
  apply extractLsb'_eq_of_bits
  intro j hj
  have hbyte : ¬ 8 ≤ j := by omega
  rw [Nat.zero_add, getLsbD_pack _ _ (by omega)]
  simp [Status.code, hbyte]

/-- Every bit of an OK response after its last data byte is 0, the error payload included (30_encoding.md R47). -/
theorem extractLsb'_pack_okResponse_after_data {d : List Byte} {lo len : Nat} (hdata : 8 * d.length + 8 ≤ lo)
    (hlen : lo + len ≤ 128) : (okResponse d).pack.extractLsb' lo len = 0#len := by
  apply extractLsb'_eq_of_bits
  intro j hj
  rw [getLsbD_pack _ _ (by omega), okResponse_data, getD_getLsbD_high d _ (by omega)]
  simp [Status.code]

/-- Words that agree in their first `n` data bytes agree in those bits. -/
theorem extractLsb'_congr_of_byteField {w w' : BitVec 128} {n : Nat}
    (h : ∀ i, i < n → byteField w i = byteField w' i) : w.extractLsb' 8 (8 * n) = w'.extractLsb' 8 (8 * n) := by
  apply extractLsb'_eq_of_bits
  intro j hj
  have hbit := congrArg (·.getLsbD (j % 8)) (h (j / 8) (by omega))
  have hidx : 8 * (j / 8) + 8 + j % 8 = 8 + j := by omega
  have hmod : j % 8 < 8 := by omega
  simp only [getLsbD_byteField, hidx, hmod, decide_true, Bool.true_and] at hbit
  rw [hbit, getLsbD_extractLsb'_of_lt _ _ _ _ hj]

/-- The state after the block's answer to an outstanding request, field by field. -/
theorem respond_afterMove {s : State} {who : Requester} {w : ReqWord}
    (hr : s.request = some { issuer := who, word := w }) (r : RspWord) :
    s.afterMove.respond r = { request := none, response := some { issuer := who, word := r },
                              runs := updateRun who (Run.deliver r) s.runs, sched := s.sched.tail } := by
  rw [State.respond, afterMove_issuer, issuer_of_request hr, afterMove_runs, afterMove_sched]

/-- The high byte of the value is the request word's bits 95:88 (30_encoding.md R40). -/
theorem hiByte_valueField (w : ReqWord) : hiByte (valueField w) = w.extractLsb' 88 8 := by
  symm
  apply extractLsb'_eq_of_bits
  intro j hj
  have hidx : 80 + (8 + j) = 88 + j := by omega
  have hlt : 8 + j < 16 := by omega
  rw [getLsbD_hiByte, valueField, getLsbD_halfField, hidx]
  simp [hj, hlt]

/-- The low byte of the value is the request word's bits 87:80 (30_encoding.md R40). -/
theorem loByte_valueField (w : ReqWord) : loByte (valueField w) = w.extractLsb' 80 8 := by
  symm
  apply extractLsb'_eq_of_bits
  intro j hj
  have hlt : j < 16 := by omega
  rw [getLsbD_loByte, valueField, getLsbD_halfField]
  simp [hj, hlt]

/-- WRITE_VALUE on nine bytes answers its response and changes nothing else. -/
theorem exec_writeValue {t : List Byte} (ht : t.length = 9) (v : Half) (s : State) :
    exec (.writeValue t v) s = .next (s.respond (writeValueResponse t v).pack) :=
  exec_of_wellFormed (.writeValue t v) s (decide_eq_true ht)

/-- The data bytes of WRITE_VALUE's response are the new template (40_value_writer.md R56). -/
theorem rspData_writeValueResponse {t : List Byte} (ht : t.length = 9) (v : Half) :
    rspData 9 (writeValueResponse t v).pack = injectValue t v :=
  rspData_okResponse 9 _ (by omega) ((length_injectValue t v).trans ht)

/-- Injecting a second value leaves nothing of the first: both go to the same two bytes. -/
theorem injectValue_injectValue (t : List Byte) (a b : Half) : injectValue (injectValue t a) b = injectValue t b := by
  have hne : Config.valueLoIndex ≠ Config.valueHiIndex := by decide
  simp only [injectValue, List.set_comm _ _ hne, List.set_set]

/-- The data bytes of WRITE_VALUE's response to the request word `w`: the value in bytes 7 and 8, high byte first, and
the request's own bytes before them (40_value_writer.md R57). -/
theorem byteField_writeValueResponse (w : ReqWord) :
    byteField (writeValueResponse (tmplField w) (valueField w)).pack 7 = w.extractLsb' 88 8 ∧
      byteField (writeValueResponse (tmplField w) (valueField w)).pack 8 = w.extractLsb' 80 8 ∧
      ∀ i, i < 7 → byteField (writeValueResponse (tmplField w) (valueField w)).pack i = byteField w i := by
  obtain ⟨hhi, hlo, hrest⟩ := getElem?_injectValue (tmplField w) (valueField w) (isTemplate_tmplField w)
  have hpacked {i : Nat} (hi : i < 11) : byteField (writeValueResponse (tmplField w) (valueField w)).pack i =
      ((injectValue (tmplField w) (valueField w))[i]?).getD 0#8 := byteField_pack _ i hi
  refine ⟨?_, ?_, fun i hi => ?_⟩
  · rw [hpacked (by omega), hhi, Option.getD_some, hiByte_valueField]
  · rw [hpacked (by omega), hlo, Option.getD_some, loByte_valueField]
  · have hi9 : i < 9 := by omega
    rw [hpacked (by omega), hrest i hi, tmplField, getElem?_byteFields, if_pos hi9, Option.getD_some]

/-- Settles O8: a low byte of 0 spells WRITE_VALUE of the word's own fields, and the response to it is known byte by
byte: its status, its data bytes, and zeros after them. -/
theorem writeValueAnswersItsRequestWord : Obligations.WriteValueAnswersItsRequestWord := by
  intro s who w hb hr hlow
  have hstep := step_of_decode hb hr (decode_eq_ok_iff.2 (.writeValue hlow))
  obtain ⟨hhi, hlo, hrest⟩ := byteField_writeValueResponse w
  have hlen : (injectValue (tmplField w) (valueField w)).length = 9 :=
    (length_injectValue _ _).trans (isTemplate_tmplField w)
  exact ⟨_, _, hstep, respond_afterMove hr _, statusByte_pack_okResponse _,
    extractLsb'_congr_of_byteField (n := 7) hrest, hhi, hlo,
    extractLsb'_pack_okResponse_after_data (by rw [hlen]) (by omega)⟩

/-- Settles O12: the response read back is the template after injection, whose bytes are known one by one. -/
theorem writeValuePutsTheValueBigEndian : Obligations.WriteValuePutsTheValueBigEndian := by
  intro tmpl value s ht
  obtain ⟨hhi, hlo, hrest⟩ := getElem?_injectValue tmpl value ht
  refine ⟨_, _, exec_writeValue ht value s, respond_response .., ?_⟩
  rw [rspData_writeValueResponse ht, length_injectValue, hhi, hlo, hiByte_eq, loByte_eq]
  exact ⟨ht, rfl, rfl, hrest, respond_request .., respond_sched .., respond_runs ..⟩

/-- Settles O24: the second request's template is the first one's answer, and injecting `b` into it gives what injecting
`b` into the first template gives. -/
theorem secondWriteValueWins : Obligations.SecondWriteValueWins := by
  intro tmpl a b s s₁ s₂ r₁ ht h hr
  obtain rfl : r₁ = (writeValueResponse tmpl a).pack := word_of_exec (i := .writeValue tmpl a) h hr
  rw [rspData_writeValueResponse ht]
  have ha : (injectValue tmpl a).length = 9 := (length_injectValue tmpl a).trans ht
  refine ⟨_, _, _, exec_writeValue ha b s₂, exec_writeValue ht b s, respond_response .., ?_⟩
  rw [respond_response, writeValueResponse, writeValueResponse, injectValue_injectValue]

end Sys2Proof.Machine
end

section
/-! One bit iteration of the checksum (41_checksum.md R62) as a map on accumulators that respects XOR, and the two other
circuits of R65. -/
namespace Sys2Proof.Machine

/-- One bit iteration, the tested bit deciding whether the polynomial or nothing is added (41_checksum.md R62). -/
theorem bitStep_eq (a : Half) : bitStep a = (a >>> 1) ^^^ (if a.getLsbD 0 then Config.crcPoly else 0#16) := by
  cases h : a.getLsbD 0 with
  | false => rw [bitStep_of_false h]; simp
  | true => rw [bitStep_of_true h, if_pos rfl]

/-- The tested bit of a bit iteration says whether the accumulator is odd. -/
theorem getLsbD_zero_eq_decide (a : Half) : a.getLsbD 0 = decide (a.toNat % 2 = 1) := by
  rw [BitVec.getLsbD, Nat.testBit_zero]

/-- Settles O25: the tested bit is the parity of the accumulator, and the shift is the halving. -/
theorem bitStepHalvesThenAddsThePolynomial : Obligations.BitStepHalvesThenAddsThePolynomial := by
  intro acc
  have hhalf : (acc >>> 1).toNat = acc.toNat / 2 := by rw [BitVec.toNat_ushiftRight, Nat.shiftRight_one]
  constructor
  · intro heven
    rw [bitStep_of_false (by rw [getLsbD_zero_eq_decide, heven]; rfl), hhalf]
  · intro hodd
    rw [bitStep_of_true (by rw [getLsbD_zero_eq_decide, hodd]; rfl), BitVec.toNat_xor, hhalf]
    rfl

/-- Settles O29: the checksum computes on each of the three templates. -/
theorem sampleChecksums : Obligations.SampleChecksums := by
  unfold Obligations.SampleChecksums
  decide +kernel

/-- What an iteration makes of an accumulator that an input was added to: the serial circuit's step on the input's low bit,
with the rest of the input, shifted, still added. -/
theorem bitStep_xor_eq_serialStep (acc x : Half) : bitStep (acc ^^^ x) = serialStep acc (x.getLsbD 0) ^^^ (x >>> 1) := by
  rw [bitStep_eq, serialStep, BitVec.getLsbD_xor, BitVec.ushiftRight_xor_distrib, BitVec.xor_assoc, BitVec.xor_assoc,
    BitVec.xor_comm (x >>> 1)]

/-- A bit iteration respects XOR. -/
theorem bitStep_xor (a b : Half) : bitStep (a ^^^ b) = bitStep a ^^^ bitStep b := by
  have hpoly (x y : Bool) : (if Bool.xor x y then Config.crcPoly else 0#16) =
      (if x then Config.crcPoly else 0#16) ^^^ (if y then Config.crcPoly else 0#16) := by
    cases x <;> cases y <;> simp
  rw [bitStep_eq, bitStep_eq a, bitStep_eq b, BitVec.getLsbD_xor, hpoly, BitVec.ushiftRight_xor_distrib]
  ac_rfl

/-- Any number of bit iterations respects XOR. -/
theorem bitSteps_xor (n : Nat) (a b : Half) : bitSteps n (a ^^^ b) = bitSteps n a ^^^ bitSteps n b := by
  induction n generalizing a b with
  | zero => rfl
  | succ n ih => rw [bitSteps, bitStep_xor, ih]; rfl

/-- `n` iterations on an accumulator that an input was added to: the serial circuit on the low `n` bits of the input, with
the input's other bits, shifted, still added. -/
theorem bitSteps_xor_eq_foldl_serialStep (n : Nat) (acc x : Half) :
    bitSteps n (acc ^^^ x) = ((List.range n).map x.getLsbD).foldl serialStep acc ^^^ (x >>> n) := by
  induction n generalizing acc x with
  | zero => simp [bitSteps]
  | succ n ih =>
    have hbits : (List.range n).map (x >>> 1).getLsbD = (List.range n).map (x.getLsbD ∘ Nat.succ) :=
      List.map_congr_left fun j _ => by simp [Nat.add_comm]
    rw [bitSteps, bitStep_xor_eq_serialStep, ih, hbits, ← BitVec.shiftRight_add, Nat.add_comm 1 n, List.range_succ_eq_map,
      List.map_cons, List.map_map, List.foldl_cons]

/-- A byte, widened, has no bits above its eight. -/
theorem setWidth_byte_ushiftRight (b : Byte) : b.setWidth 16 >>> 8 = 0#16 := by
  apply BitVec.eq_of_getLsbD_eq
  intro j _
  simp

/-- One byte of the checksum is its eight bits through the serial circuit. -/
theorem byteStep_eq_foldl_serialStep (acc : Half) (b : Byte) : byteStep acc b = (bitsOf b).foldl serialStep acc := by
  have hbits : (List.range 8).map (b.setWidth 16).getLsbD = bitsOf b :=
    List.map_congr_left fun j hj => by
      have : j < 16 := by have := List.mem_range.1 hj; omega
      simp [this]
  rw [byteStep, Config.bitsPerByte, bitSteps_xor_eq_foldl_serialStep, hbits, setWidth_byte_ushiftRight,
    BitVec.xor_zero]

@[simp] theorem length_bitsOf (b : Byte) : (bitsOf b).length = 8 := by simp [bitsOf]

/-- Settles O26: byte by byte, the eight iterations are the serial circuit on the byte's eight bits. -/
theorem checksumEqualsTheBitSerialCircuit : Obligations.ChecksumEqualsTheBitSerialCircuit := by
  intro tmpl ht
  have hbyte : byteStep = fun acc b => (bitsOf b).foldl serialStep acc := funext₂ byteStep_eq_foldl_serialStep
  constructor
  · simp [List.length_flatMap, ht]
  · rw [crc16, hbyte, List.foldl_flatMap]

/-- As long as the tested bits are 0, bit iterations only shift. -/
theorem bitSteps_of_low_bits_zero {n : Nat} {a : Half} (h : ∀ j, j < n → a.getLsbD j = false) : bitSteps n a = a >>> n := by
  induction n generalizing a with
  | zero => simp [bitSteps]
  | succ n ih =>
    have hrest : ∀ j, j < n → (a >>> 1).getLsbD j = false := fun j hj => by
      rw [BitVec.getLsbD_ushiftRight]
      exact h (1 + j) (by omega)
    rw [bitSteps, bitStep_of_false (h 0 n.succ_pos), ih hrest, ← BitVec.shiftRight_add, Nat.add_comm 1 n]

/-- One byte of the checksum is one lookup: the high byte of the accumulator only shifts, the rest is the table's index. -/
theorem byteStep_eq_tableStep : byteStep = tableStep := by
  funext acc b
  have hsplit : acc ^^^ b.setWidth 16 =
      (acc ^^^ (acc.setWidth 8).setWidth 16) ^^^ (acc.setWidth 8 ^^^ b).setWidth 16 := by
    rw [BitVec.setWidth_xor, BitVec.xor_assoc, ← BitVec.xor_assoc _ _ (b.setWidth 16), BitVec.xor_self, BitVec.zero_xor]
  have hhigh : bitSteps 8 (acc ^^^ (acc.setWidth 8).setWidth 16) = acc >>> 8 := by
    have hlow : ∀ j, j < 8 → (acc ^^^ (acc.setWidth 8).setWidth 16).getLsbD j = false := fun j hj => by
      have hwide : j < 16 := by omega
      simp [hj, hwide]
    rw [bitSteps_of_low_bits_zero hlow, BitVec.ushiftRight_xor_distrib, setWidth_byte_ushiftRight, BitVec.xor_zero]
  rw [byteStep, tableStep, crcTable, Config.bitsPerByte, hsplit, bitSteps_xor, hhigh]

/-- Settles O27: byte by byte, the eight iterations are one lookup. -/
theorem checksumEqualsTheTableCircuit : Obligations.ChecksumEqualsTheTableCircuit := by
  intro tmpl _
  rw [crc16, byteStep_eq_tableStep]

end Sys2Proof.Machine
end

section
/-! The checksum tells any two values of one byte apart (41_checksum.md R59). -/
namespace Sys2Proof.Machine

/-- The bit shifted out comes back as the top bit, since the polynomial has it and the shift leaves it 0. -/
theorem getLsbD_bitStep_top (a : Half) : (bitStep a).getLsbD 15 = a.getLsbD 0 := by
  rw [bitStep_eq, BitVec.getLsbD_xor, BitVec.getLsbD_ushiftRight, BitVec.getLsbD_of_ge a _ (by decide), Bool.false_xor]
  cases a.getLsbD 0 <;> decide

/-- A bit iteration loses nothing: its top bit is the bit shifted out, and with that known the others are too. -/
theorem bitStep_injective : Function.Injective bitStep := by
  intro a b h
  have hlow : a.getLsbD 0 = b.getLsbD 0 := by rw [← getLsbD_bitStep_top, h, getLsbD_bitStep_top]
  have hshift : a >>> 1 = b >>> 1 := by
    rw [bitStep_eq, bitStep_eq, hlow] at h
    exact (BitVec.xor_left_inj _).1 h
  apply BitVec.eq_of_getLsbD_eq
  intro j _
  cases j with
  | zero => exact hlow
  | succ j => simpa [Nat.add_comm] using congrArg (·.getLsbD j) hshift

/-- Any number of bit iterations loses nothing. -/
theorem bitSteps_injective (n : Nat) : Function.Injective (bitSteps n) := by
  induction n with
  | zero => exact Function.injective_id
  | succ n ih => exact ih.comp bitStep_injective

/-- Different accumulators stay different under one input byte. -/
theorem byteStep_injective_acc (b : Byte) : Function.Injective fun acc => byteStep acc b :=
  fun _ _ h => (BitVec.xor_left_inj _).1 (bitSteps_injective _ h)

/-- Different input bytes give different accumulators. -/
theorem byteStep_injective_byte (acc : Half) : Function.Injective (byteStep acc) := by
  intro b c h
  have hwide : b.setWidth 16 = c.setWidth 16 := (BitVec.xor_right_inj _).1 (bitSteps_injective _ h)
  simpa using congrArg (BitVec.setWidth 8) hwide

/-- Different accumulators stay different under any input bytes. -/
theorem foldl_byteStep_injective (bs : List Byte) : Function.Injective fun acc => bs.foldl byteStep acc := by
  induction bs with
  | nil => exact Function.injective_id
  | cons b bs ih => exact ih.comp (byteStep_injective_acc b)

/-- With the other bytes fixed, the checksum is injective in any one byte. -/
theorem crc16_set_injective {t : List Byte} {i : Nat} (hi : i < t.length) :
    Function.Injective fun b => crc16 (t.set i b) := by
  intro b c h
  simp only [crc16, List.set_eq_take_append_cons_drop, if_pos hi, List.foldl_append, List.foldl_cons] at h
  exact byteStep_injective_byte _ (foldl_byteStep_injective _ h)

/-- Settles O28: the template is itself with its own byte set at the index. -/
theorem checksumDependsOnEveryByte : Obligations.ChecksumDependsOnEveryByte := by
  intro tmpl i b ht hi hne heq
  have hlt : i < tmpl.length := by omega
  have hsame : crc16 (tmpl.set i b) = crc16 (tmpl.set i tmpl[i]) := by rw [heq, List.set_getElem_self]
  exact hne (by rw [List.getElem?_eq_getElem hlt, crc16_set_injective hlt hsame])

end Sys2Proof.Machine
end

section
/-! CHECKSUM (41_checksum.md), from operands to response word. -/
namespace Sys2Proof.Machine

/-- Two data bytes of a word that hold a 16-bit number low byte first are that number as one field (10_state.md R22). -/
theorem halfField_of_byteFields {w : BitVec 128} {i : Nat} {c : Half} (hlo : byteField w i = loByte c)
    (hhi : byteField w (i + 1) = hiByte c) : halfField w (8 * i + 8) = c := by
  apply extractLsb'_eq_of_bits
  intro j hj
  by_cases hlow : j < 8
  · have hbit := congrArg (·.getLsbD j) hlo
    simpa only [getLsbD_byteField, getLsbD_loByte, hlow, decide_true, Bool.true_and] using hbit
  · have hbit := congrArg (·.getLsbD (j - 8)) hhi
    have hidx : 8 * (i + 1) + 8 + (j - 8) = 8 * i + 8 + j := by omega
    have hback : 8 + (j - 8) = j := by omega
    have hlt : j - 8 < 8 := by omega
    simpa only [getLsbD_byteField, getLsbD_hiByte, hidx, hback, hlt, decide_true, Bool.true_and] using hbit

/-- CHECKSUM on nine bytes answers its response and changes nothing else. -/
theorem exec_checksum {t : List Byte} (ht : t.length = 9) (s : State) :
    exec (.checksum t) s = .next (s.respond (checksumResponse t).pack) :=
  exec_of_wellFormed (.checksum t) s (decide_eq_true ht)

/-- PACKETIZE on nine bytes answers its response and changes nothing else. -/
theorem exec_packetize {t : List Byte} (ht : t.length = 9) (s : State) :
    exec (.packetize t) s = .next (s.respond (packetizeResponse t).pack) :=
  exec_of_wellFormed (.packetize t) s (decide_eq_true ht)

/-- The data bytes of CHECKSUM's response are the checksum (41_checksum.md R63). -/
theorem rspData_checksumResponse (t : List Byte) : rspData 2 (checksumResponse t).pack = checksumOf t :=
  rspData_okResponse 2 _ (by omega) (length_checksumOf t)

/-- The data bytes of PACKETIZE's response are the frame (42_packetizer.md R66). -/
theorem rspData_packetizeResponse {t : List Byte} (ht : t.length = 9) :
    rspData 11 (packetizeResponse t).pack = frameOf t :=
  rspData_okResponse 11 _ (by omega) (by rw [length_frameOf, ht])

/-- The checksum stands in bits 23:8 of CHECKSUM's response. -/
theorem halfField_checksumResponse (t : List Byte) : halfField (checksumResponse t).pack 8 = crc16 t :=
  halfField_of_byteFields (i := 0) (byteField_pack _ 0 (by omega)) (byteField_pack _ 1 (by omega))

/-- Settles O9: a low byte of 1 spells CHECKSUM of the word's own template, and the response to it is known field by field:
its status, the checksum, and zeros after it. -/
theorem checksumAnswersItsRequestWord : Obligations.ChecksumAnswersItsRequestWord := by
  intro s who w hb hr hlow
  have hstep := step_of_decode hb hr (decode_eq_ok_iff.2 (.checksum hlow))
  exact ⟨_, _, hstep, respond_afterMove hr _, statusByte_pack_okResponse _, halfField_checksumResponse _,
    extractLsb'_pack_okResponse_after_data (by rw [length_checksumOf]) (by omega)⟩

/-- Settles O13: both responses read back as the two bytes of `crc16`, after the template in the frame. -/
theorem checksumEmitsTheLowByteFirst : Obligations.ChecksumEmitsTheLowByteFirst := by
  intro tmpl s ht
  obtain ⟨hlo, hhi⟩ := getElem?_frameOf_checksum ht
  refine ⟨_, _, _, _, exec_checksum ht s, respond_response .., ?_, exec_packetize ht s, respond_response .., ?_⟩
  · rw [rspData_checksumResponse, checksumOf, checksumBytes, loByte_eq, hiByte_eq]
  · rw [rspData_packetizeResponse ht, hlo, hhi, loByte_eq, hiByte_eq]
    exact ⟨rfl, rfl, respond_request .., respond_sched .., respond_runs .., respond_request .., respond_sched ..,
      respond_runs ..⟩

end Sys2Proof.Machine
end

section
/-! PACKETIZE (42_packetizer.md), from operands to response word. -/
namespace Sys2Proof.Machine

/-- The bytes of a frame before its checksum are the template's own (42_packetizer.md R66). -/
theorem getElem?_frameOf_template {t : List Byte} {i : Nat} (hi : i < t.length) : (frameOf t)[i]? = t[i]? :=
  List.getElem?_append_left hi

/-- The data bytes of PACKETIZE's response to the request word `w`: the request's own template, then the two bytes of its
checksum, low byte first (42_packetizer.md R66). -/
theorem byteField_packetizeResponse (w : ReqWord) :
    byteField (packetizeResponse (tmplField w)).pack 9 = loByte (crc16 (tmplField w)) ∧
      byteField (packetizeResponse (tmplField w)).pack 10 = hiByte (crc16 (tmplField w)) ∧
      ∀ i, i < 9 → byteField (packetizeResponse (tmplField w)).pack i = byteField w i := by
  have ht := isTemplate_tmplField w
  obtain ⟨hlo, hhi⟩ := getElem?_frameOf_checksum ht
  have hpacked {i : Nat} (hi : i < 11) : byteField (packetizeResponse (tmplField w)).pack i =
      ((frameOf (tmplField w))[i]?).getD 0#8 := byteField_pack _ i hi
  refine ⟨?_, ?_, fun i hi => ?_⟩
  · rw [hpacked (by omega), hlo, Option.getD_some]
  · rw [hpacked (by omega), hhi, Option.getD_some]
  · rw [hpacked (by omega), getElem?_frameOf_template (hi.trans_eq ht.symm), tmplField, getElem?_byteFields, if_pos hi,
      Option.getD_some]

/-- Settles O10: a low byte of 2 spells PACKETIZE of the word's own template, and the response to it is known byte by
byte: its status, the template, the checksum as one field, and zeros after it. -/
theorem packetizeAnswersItsRequestWord : Obligations.PacketizeAnswersItsRequestWord := by
  intro s who w hb hr hlow
  have hstep := step_of_decode hb hr (decode_eq_ok_iff.2 (.packetize hlow))
  obtain ⟨hlo, hhi, htmpl⟩ := byteField_packetizeResponse w
  have hlen : (frameOf (tmplField w)).length = 11 := by rw [length_frameOf, isTemplate_tmplField w]
  exact ⟨_, _, hstep, respond_afterMove hr _, statusByte_pack_okResponse _,
    extractLsb'_congr_of_byteField (n := 9) htmpl, halfField_of_byteFields (i := 9) hlo hhi,
    extractLsb'_pack_okResponse_after_data (by rw [hlen]) (by omega)⟩

/-- Settles O14: whatever the two states, the responses read back as the frame and as the checksum, and the frame is the
template with that checksum appended. -/
theorem frameIsTemplateThenChecksum : Obligations.FrameIsTemplateThenChecksum := by
  intro tmpl s s' ht
  refine ⟨_, _, _, _, exec_packetize ht s, respond_response .., exec_checksum ht s', respond_response .., ?_⟩
  rw [rspData_packetizeResponse ht, rspData_checksumResponse, length_frameOf, ht]
  exact ⟨rfl, List.take_left' ht, List.drop_left' ht, rfl⟩

end Sys2Proof.Machine
end

section
/-! RANGE (43_range_guard.md), from operands to response word. -/
namespace Sys2Proof.Machine

/-- Words that agree in two adjacent fields agree in the field they make up. -/
theorem extractLsb'_congr_of_adjacent {w w' : BitVec 128} {lo m n : Nat} (hlow : w.extractLsb' lo m = w'.extractLsb' lo m)
    (hhigh : w.extractLsb' (lo + m) n = w'.extractLsb' (lo + m) n) :
    w.extractLsb' lo (n + m) = w'.extractLsb' lo (n + m) := by
  rw [← BitVec.extractLsb'_append_extractLsb'_eq_extractLsb' rfl, hlow, hhigh,
    BitVec.extractLsb'_append_extractLsb'_eq_extractLsb' rfl]

/-- Between its status and its error payload, the word of a failed RANGE is 0 (30_encoding.md R47). -/
theorem getLsbD_pack_raiseInvalidRange {j : Nat} (hstatus : 1 ≤ j) (hpayload : j < 96) (lo hi : Half) :
    (raiseInvalidRange lo hi).pack.getLsbD j = false := by
  refine getLsbD_pack_undefined hstatus hpayload ?_
  rw [raiseInvalidRange_data, List.length_nil]
  omega

/-- Before its error payload, the word of a failed RANGE holds the status bit alone (30_encoding.md R45, R47). -/
theorem extractLsb'_pack_raiseInvalidRange (lo hi : Half) : (raiseInvalidRange lo hi).pack.extractLsb' 0 96 = 1#96 := by
  apply extractLsb'_eq_of_bits
  intro j hj
  rw [Nat.zero_add]
  cases j with
  | zero => exact rspStatus_pack _
  | succ j =>
    rw [getLsbD_pack_raiseInvalidRange (by omega) hj]
    simp

/-- The error payload of a failed RANGE is its bounds (43_range_guard.md R71). -/
theorem payload_pack_raiseInvalidRange (lo hi : Half) :
    rspStart (raiseInvalidRange lo hi).pack = lo ∧ rspEnd (raiseInvalidRange lo hi).pack = hi :=
  ⟨rspStart_pack _ (Nat.zero_le _), rspEnd_pack _ (Nat.zero_le _)⟩

/-- A RANGE that succeeds answers the word 0 (43_range_guard.md R69). -/
theorem pack_rangeResponse_of_le {v lo hi : Half} (h : v.toNat ≤ hi.toNat) : (rangeResponse v lo hi).pack = 0#128 := by
  rw [rangeResponse_of_not_lt (Nat.not_lt.2 h)]
  decide

/-- RANGE fails exactly when the value exceeds the upper bound; the lower bound takes no part (43_range_guard.md R69,
R70). -/
theorem rspStatus_rangeResponse (v lo hi : Half) :
    rspStatus (rangeResponse v lo hi).pack = decide (hi.toNat < v.toNat) := by
  by_cases hv : hi.toNat < v.toNat
  · rw [rangeResponse_of_lt hv, rspStatus_pack, decide_eq_true hv]
    rfl
  · rw [rangeResponse_of_not_lt hv, rspStatus_pack, decide_eq_false hv]
    rfl

/-- RANGE answers its response whatever its operands, and changes nothing else. -/
theorem exec_range (v lo hi : Half) (s : State) :
    exec (.range v lo hi) s = .next (s.respond (rangeResponse v lo hi).pack) :=
  exec_of_wellFormed (.range v lo hi) s rfl

/-- Settles O11: a low byte of 3 spells RANGE of the word's own fields, and the response to it is the failed one, whose
payload is the two bounds side by side, or the word 0. -/
theorem rangeAnswersItsRequestWord : Obligations.RangeAnswersItsRequestWord := by
  intro s who w hb hr hlow
  have hstep := step_of_decode hb hr (decode_eq_ok_iff.2 (.range hlow))
  refine ⟨_, _, hstep, respond_afterMove hr _, fun hv => ?_, pack_rangeResponse_of_le⟩
  have hfail : rangeResponse (valueField w) (minField w) (maxField w) = raiseInvalidRange (minField w) (maxField w) :=
    rangeResponse_of_lt hv
  obtain ⟨hstart, hend⟩ := payload_pack_raiseInvalidRange (minField w) (maxField w)
  rw [responseOf, hfail]
  exact ⟨extractLsb'_pack_raiseInvalidRange .., extractLsb'_congr_of_adjacent hstart hend⟩

/-- Settles O15: the status is the test against `max`, in which `min` does not occur. -/
theorem rangeNeverComparesWithMin : Obligations.RangeNeverComparesWithMin := by
  intro v lo hi s
  refine ⟨_, _, exec_range v lo hi s, respond_response .., ?_, fun _ => pack_rangeResponse_of_le,
    fun lo' t' r' h hr => ?_, respond_request .., respond_sched .., respond_runs ..⟩
  · rw [rspStatus_rangeResponse, decide_eq_true_iff]
  · obtain rfl : r' = (rangeResponse v lo' hi).pack := word_of_exec (i := .range v lo' hi) h hr
    rw [rspStatus_rangeResponse, rspStatus_rangeResponse]

/-- Settles O16: every value above `max` gets one and the same word, made of the bounds alone. -/
theorem failedRangeReportsItsBounds : Obligations.FailedRangeReportsItsBounds := by
  intro v lo hi s
  refine ⟨_, _, exec_range v lo hi s, respond_response .., ?_, fun hv => ?_⟩
  · rw [rspStatus_rangeResponse, decide_eq_true_iff]
  · obtain ⟨hstart, hend⟩ := payload_pack_raiseInvalidRange lo hi
    rw [rangeResponse_of_lt hv]
    refine ⟨hstart, hend, fun j hj hj96 => getLsbD_pack_raiseInvalidRange hj hj96 lo hi, fun v' t' r' hv' h hr => ?_⟩
    obtain rfl : r' = (rangeResponse v' lo hi).pack := word_of_exec (i := .range v' lo hi) h hr
    rw [rangeResponse_of_lt hv']

end Sys2Proof.Machine
end

section
/-! The moves of a host, one rule per phase of its run (44_sequences.md R74 to R77). -/
namespace Sys2Proof.Machine

/-- A run that passes the checks begins (44_sequences.md R75). -/
theorem start_of_wellFormed {c : Run} (h : c.wellFormed = true) :
    c.start = { c with env := inputEnv c.inputs, k := 0, phase := .ready } := if_pos h

/-- A run that fails the checks is refused (44_sequences.md R74). -/
theorem start_of_not_wellFormed {c : Run} (h : c.wellFormed = false) : c.start = { c with phase := .refused } :=
  if_neg (by rw [h]; exact Bool.false_ne_true)

/-- A run that is over with a result, or was abandoned, starts anew; every other one stays as it is (log 12). -/
theorem again_cases (c : Run) : c.again = c ∨
    (c.phase = .abandoned ∨ ∃ res, c.phase = .finished res) ∧ c.again = Run.fresh c.inputs c.body := by
  unfold Run.again
  split
  · rename_i res hp; exact .inr ⟨.inr ⟨res, hp⟩, rfl⟩
  · rename_i hp; exact .inr ⟨.inl hp, rfl⟩
  · exact .inl rfl

/-- A run that is over with a result, or was abandoned, starts anew (log 12). -/
theorem again_of_ended {c : Run} (h : c.phase = .abandoned ∨ ∃ res, c.phase = .finished res) :
    c.again = Run.fresh c.inputs c.body := by
  rcases h with h | ⟨res, h⟩ <;> simp only [Run.again, h]

section oneRun
variable {s : State} {n : Nat} {c : Run}

/-- Putting a run back unchanged changes nothing. -/
theorem setRun_self (hc : s.runs[n]? = some c) : s.setRun n c = s := by
  obtain ⟨hn, rfl⟩ := List.getElem?_eq_some_iff.1 hc
  rw [State.setRun, List.set_getElem_self]

/-- Running a sequence again puts its run back. -/
theorem restart_of_some (hc : s.runs[n]? = some c) : s.restart n = s.setRun n c.again := by
  rw [State.restart, State.setRun, List.modify_eq_set_getElem?, hc]
  rfl

/-- Running a sequence again that is not there changes nothing. -/
theorem restart_of_none (hc : s.runs[n]? = none) : s.restart n = s := by
  rw [State.restart, List.modify_eq_set_getElem?, hc]
  rfl

/-- A host first checks its sequence (44_sequences.md R74). -/
theorem hostMove_of_starting (hc : s.runs[n]? = some c) (hp : c.phase = .starting) :
    s.hostMove n = s.setRun n c.start := by simp only [State.hostMove, hc, hp]

/-- A host with a response takes it in (44_sequences.md R75). -/
theorem hostMove_of_received {r : RspWord} (hc : s.runs[n]? = some c) (hp : c.phase = .received r) :
    s.hostMove n = s.setRun n (c.receive r) := by simp only [State.hostMove, hc, hp]

/-- A host at a RETURN of a bound name ends its run with the value (44_sequences.md R77). -/
theorem hostMove_of_return {x : Ident} {v : Val} (hc : s.runs[n]? = some c) (hp : c.phase = .ready)
    (hst : c.body[c.k]? = some (.ret x)) (hv : lookup c.env x = some v) :
    s.hostMove n = s.setRun n (c.finish (.ok v)) := by
  simp only [State.hostMove, hc, hp, hst, State.runStmt, Run.returns, hv]

/-- A host at an operation issues its request to a free block (44_sequences.md R75). -/
theorem hostMove_of_operation {st : Stmt} {i : Instr} (hc : s.runs[n]? = some c) (hp : c.phase = .ready)
    (hst : c.body[c.k]? = some st) (hi : st.instr? c.env = some i) (hfree : s.request = none) :
    s.hostMove n = s.issueFor n c i := by
  have hstmt : s.runStmt n c st = s.issueFor n c i := by
    cases st with
    | ret x => cases hi
    | _ => simp [State.runStmt, hi, hfree]
  simpa only [State.hostMove, hc, hp, hst] using hstmt

/-- A host whose run waits or is over has no move to make. -/
theorem hostMove_of_not_canMove (hc : s.runs[n]? = some c) (hp : c.phase.canMove = false) : s.hostMove n = s := by
  unfold State.hostMove
  cases h : c.phase <;> simp_all [Phase.canMove]

/-- A step that the schedule gives to a host is the move of that host. -/
theorem step_of_run {rest : List Move} (hs : s.sched = .run n :: rest) :
    step s = .next ((s.withSched rest).hostMove n) := by
  rw [step_of_sched hs]; rfl

end oneRun

end Sys2Proof.Machine
end

section
/-! A sequence that is well formed as it runs: on course, it always has a statement to go on with (44_sequences.md R74 to
R77). -/
namespace Sys2Proof.Machine

/-- The checks of R74 pass on the body of a well-formed run, under its own input names. -/
theorem Run.bodyChecks_of_wellFormed {c : Run} (h : c.wellFormed = true) :
    bodyChecks ((c.inputs.map Prod.fst).map fun x => (x, .num)) c.body = true :=
  (Bool.and_eq_true_iff.1 h).2

/-- A run on course stands at a statement that goes on or ends. -/
theorem Run.OnCourse.statement {c : Run} (h : c.OnCourse) :
    ∃ st, c.body[c.k]? = some st ∧ st.effect c.env ≠ .stuck := by
  obtain ⟨hwf, henv⟩ := h
  obtain ⟨ctx, hcompat, hchecks, -, -⟩ :=
    envAfter_checks c.k (compatible_inputEnv c.inputs) (Run.bodyChecks_of_wellFormed hwf) henv
  cases hdrop : c.body.drop c.k with
  | nil => rw [hdrop] at hchecks; cases hchecks
  | cons st rest =>
    have hst : c.body[c.k]? = some st := by rw [← List.head?_drop, hdrop, List.head?_cons]
    rw [hdrop] at hchecks
    refine ⟨st, hst, ?_⟩
    rcases hcompat.effect hchecks with ⟨env', _, he, -⟩ | ⟨res, he⟩ <;> rw [he] <;> exact StmtEffect.noConfusion

/-- A run on course is at a RETURN of a bound name, or at a statement that issues an operation. -/
theorem Run.OnCourse.next {c : Run} (h : c.OnCourse) :
    (∃ x v, c.body[c.k]? = some (.ret x) ∧ lookup c.env x = some v) ∨
      ∃ st i, c.body[c.k]? = some st ∧ st.instr? c.env = some i := by
  obtain ⟨st, hst, hne⟩ := h.statement
  by_cases hret : ∃ x, st = .ret x
  · obtain ⟨x, rfl⟩ := hret
    cases hv : lookup c.env x with
    | none => exact absurd (by simp only [Stmt.effect, hv]) hne
    | some v => exact .inl ⟨x, v, hst, hv⟩
  · obtain ⟨i, hi⟩ := instr?_of_effect hne fun x hx => hret ⟨x, hx⟩
    exact .inr ⟨st, i, hst, hi⟩

/-- A run that starts on a well-formed sequence is on course. -/
theorem Run.onCourse_start {c : Run} (h : c.wellFormed = true) :
    Run.OnCourse { c with env := inputEnv c.inputs, k := 0, phase := .ready } := ⟨h, rfl⟩

/-- A run on course whose statement goes on is on course at the next one. -/
theorem Run.OnCourse.goesOn {c : Run} {st : Stmt} {env : Env} (h : c.OnCourse) (hst : c.body[c.k]? = some st)
    (he : st.effect c.env = .goesOn env) : Run.OnCourse { c with env := env, k := c.k + 1, phase := .ready } :=
  ⟨h.1, envAfter_succ c.k h.2 hst he⟩

/-- A RETURN of a bound name ends the sequence with its value. -/
theorem effect_ret {env : Env} {x : Ident} {v : Val} (hv : lookup env x = some v) :
    (Stmt.ret x).effect env = .ends (.ok v) := by simp only [Stmt.effect, hv]

end Sys2Proof.Machine
end

section
/-! Every step keeps the invariant. What a run's soundness says of each phase; then one lemma for a step that puts one run
back, and one for a step that ends the outstanding transaction. -/
namespace Sys2Proof.Machine

section phases
/-! What soundness says in each phase. -/
variable {s : State} {n : Nat} {c : Run}

theorem sound_of_starting (hp : c.phase = .starting) : c.Sound s n ↔ c.env = [] ∧ c.k = 0 := by
  simp only [Run.Sound, hp]

theorem sound_of_ready (hp : c.phase = .ready) : c.Sound s n ↔ c.OnCourse := by simp only [Run.Sound, hp]

theorem sound_of_waiting (hp : c.phase = .waiting) : c.Sound s n ↔
    c.OnCourse ∧ ∃ i, c.Asks i ∧ s.request = some { issuer := .run n, word := encode i } := by
  simp only [Run.Sound, hp]

theorem sound_of_received {r : RspWord} (hp : c.phase = .received r) : c.Sound s n ↔
    c.OnCourse ∧ ∃ i, c.Asks i ∧ r = (responseOf i).pack := by simp only [Run.Sound, hp]

theorem sound_of_finished {res : Result} (hp : c.phase = .finished res) : c.Sound s n ↔
    c.OnCourse ∧ ∃ st, c.body[c.k]? = some st ∧ st.effect c.env = .ends res := by simp only [Run.Sound, hp]

theorem sound_of_abandoned (hp : c.phase = .abandoned) : c.Sound s n ↔ c.OnCourse := by simp only [Run.Sound, hp]

theorem sound_of_refused (hp : c.phase = .refused) : c.Sound s n ↔ c.wellFormed = false ∧ c.env = [] ∧ c.k = 0 := by
  simp only [Run.Sound, hp]

/-- Soundness looks at the state only for the outstanding request. -/
theorem sound_congr {t : State} (hreq : t.request = s.request) : c.Sound t n ↔ c.Sound s n := by
  simp only [Run.Sound, hreq]

/-- Soundness of a run that does not wait is a fact about the run alone. -/
theorem sound_iff_of_not_waiting (hp : c.phase ≠ .waiting) (t : State) : c.Sound t n ↔ c.Sound s n := by
  cases h : c.phase with
  | waiting => exact absurd h hp
  | _ => simp only [Run.Sound, h]

end phases

/-- A run that waits has its request outstanding. -/
theorem State.Inv.issuer_of_waiting {s : State} {n : Nat} {c : Run} (h : s.Inv) (hc : s.runs[n]? = some c)
    (hp : c.phase = .waiting) : s.issuer = .run n := by
  obtain ⟨-, i, -, hreq⟩ := (sound_of_waiting hp).1 (h.runs_sound n c hc)
  exact issuer_of_request hreq

/-- The run whose request is outstanding waits for the operation that the request word spells. -/
theorem State.Inv.waiting_of_issuer {s : State} {n : Nat} (h : s.Inv) (hn : s.issuer = .run n) :
    ∃ c i, s.runs[n]? = some c ∧ c.phase = .waiting ∧ c.OnCourse ∧ c.Asks i ∧
      s.request = some { issuer := .run n, word := encode i } := by
  obtain ⟨w, hreq⟩ : ∃ w, s.request = some { issuer := .run n, word := w } := by
    cases hr : s.request with
    | none => simp [State.issuer, hr] at hn
    | some o => exact ⟨o.word, by rw [← hn, issuer_of_request hr]⟩
  obtain ⟨c, hc, hp⟩ := h.issuer_waits n w hreq
  obtain ⟨hcourse, i, hasks, hword⟩ := (sound_of_waiting hp).1 (h.runs_sound n c hc)
  exact ⟨c, i, hc, hp, hcourse, hasks, hword⟩

/-- The request word of a statement decodes to the operation the run asks for. -/
theorem Run.Asks.decode {c : Run} {i : Instr} (h : c.Asks i) : decode (encode i) = .ok i := by
  obtain ⟨st, -, hi⟩ := h
  exact decode_encode i (wellFormed_of_instr? hi)

section oneRun
variable {s : State} {n : Nat} {c : Run} (h : s.Inv)
include h

/-- The invariant says nothing of the schedule. -/
theorem State.Inv.withSched (sc : List Move) : (s.withSched sc).Inv :=
  ⟨fun n c hc => (sound_congr rfl).1 (h.runs_sound n c hc), h.issuer_waits⟩

/-- Putting back a run that does not wait, for one that did not, keeps the invariant. -/
theorem State.Inv.setRun {c' : Run} (hc : s.runs[n]? = some c) (hp : c.phase ≠ .waiting) (hp' : c'.phase ≠ .waiting)
    (hsound : c'.Sound s n) : (s.setRun n c').Inv := by
  have hn : n < s.runs.length := (List.getElem?_eq_some_iff.1 hc).1
  constructor
  · intro m d hd
    rw [setRun_runs] at hd
    by_cases hm : n = m
    · subst hm
      rw [List.getElem?_set_self hn, Option.some.injEq] at hd
      subst hd
      exact (sound_iff_of_not_waiting hp' _).1 hsound
    · rw [List.getElem?_set_ne hm] at hd
      exact (sound_congr rfl).1 (h.runs_sound m d hd)
  · intro m w hreq
    obtain ⟨d, hd, hwaits⟩ := h.issuer_waits m w hreq
    have hm : n ≠ m := by
      rintro rfl
      rw [hc, Option.some.injEq] at hd
      exact hp (hd ▸ hwaits)
    exact ⟨d, by rw [setRun_runs, List.getElem?_set_ne hm, hd], hwaits⟩

/-- Ending the transaction keeps the invariant when what is done to the run that waited makes it sound. -/
theorem State.Inv.endTransaction {t : State} {f : Run → Run} (hreq : t.request = none)
    (hruns : t.runs = updateRun s.issuer f s.runs)
    (hf : ∀ m d i, d.OnCourse → d.Asks i → s.request = some { issuer := .run m, word := encode i } →
      (f d).Sound t m) : t.Inv := by
  refine ⟨fun m d hd => ?_, fun m w hw => by rw [hreq] at hw; cases hw⟩
  rw [hruns] at hd
  by_cases hm : s.issuer = .run m
  · obtain ⟨d', i, hd', -, hcourse, hasks, hword⟩ := h.waiting_of_issuer hm
    rw [hm, getElem?_updateRun_self, hd', Option.map_some, Option.some.injEq] at hd
    exact hd ▸ hf m d' i hcourse hasks hword
  · rw [getElem?_updateRun_of_ne _ _ _ _ hm] at hd
    have hp : d.phase ≠ .waiting := fun hp => hm (h.issuer_of_waiting hd hp)
    exact (sound_iff_of_not_waiting hp _).1 (h.runs_sound m d hd)

/-- A block that answers keeps the invariant: the run that waited has the response of its own operation. -/
theorem State.Inv.respond {o : Outstanding} {i : Instr} (hr : s.request = some o) (hd : decode o.word = .ok i) :
    (s.respond (responseOf i).pack).Inv := by
  refine h.endTransaction (respond_request ..) (respond_runs ..) fun m d i' hcourse hasks hword => ?_
  obtain rfl : o = { issuer := .run m, word := encode i' } := Option.some.inj (hr.symm.trans hword)
  obtain rfl : i' = i := Except.ok.inj (hasks.decode.symm.trans hd)
  exact (sound_of_received (deliver_phase ..)).2 ⟨hcourse, i', hasks, rfl⟩

/-- A reset keeps the invariant: the run that waited is abandoned where it stood. -/
theorem State.Inv.takeReset : s.takeReset.Inv := by
  exact h.endTransaction (takeReset_request ..) (takeReset_runs ..) fun m d i hcourse _ _ =>
    (sound_of_abandoned (abandon_phase ..)).2 hcourse

/-- With no request outstanding no run waits. -/
theorem State.Inv.not_waiting (hfree : s.request = none) {m : Nat} {d : Run} (hd : s.runs[m]? = some d) :
    d.phase ≠ .waiting := fun hp => by
  have hissuer := h.issuer_of_waiting hd hp
  simp [State.issuer, hfree] at hissuer

/-- A requester outside that presents a request to a free block keeps the invariant: no run waits. -/
theorem State.Inv.issueOutside (hfree : s.request = none) (w : ReqWord) : (s.issue .outside w).Inv := by
  refine ⟨fun m d hd => ?_, fun m w' hw => by cases hw⟩
  exact (sound_iff_of_not_waiting (h.not_waiting hfree hd) _).1 (h.runs_sound m d hd)

/-- A host that issues the request of its statement keeps the invariant: its run waits for just that request. -/
theorem State.Inv.issueFor {i : Instr} (hc : s.runs[n]? = some c) (hcourse : c.OnCourse) (hasks : c.Asks i)
    (hfree : s.request = none) : (s.issueFor n c i).Inv := by
  have hn : n < s.runs.length := (List.getElem?_eq_some_iff.1 hc).1
  have hruns : (s.issueFor n c i).runs = s.runs.set n { c with phase := .waiting } := rfl
  have hself : (s.issueFor n c i).runs[n]? = some { c with phase := .waiting } := by
    rw [hruns, List.getElem?_set_self hn]
  constructor
  · intro m d hd
    by_cases hm : n = m
    · subst hm
      obtain rfl := Option.some.inj (hself.symm.trans hd)
      exact (sound_of_waiting rfl).2 ⟨hcourse, i, hasks, rfl⟩
    · rw [hruns, List.getElem?_set_ne hm] at hd
      exact (sound_iff_of_not_waiting (h.not_waiting hfree hd) _).1 (h.runs_sound m d hd)
  · rintro m w ⟨⟩
    exact ⟨_, hself, rfl⟩

/-- A fresh run at the end keeps the invariant. -/
theorem State.Inv.load (inputs : List (Ident × Half)) (body : List Stmt) : (s.load inputs body).Inv := by
  constructor
  · intro m d hd
    rw [load_runs] at hd
    by_cases hm : m < s.runs.length
    · rw [List.getElem?_append_left hm] at hd
      exact (sound_congr rfl).1 (h.runs_sound m d hd)
    · rw [List.getElem?_append_right (Nat.le_of_not_lt hm)] at hd
      obtain rfl := List.mem_singleton.1 (List.mem_of_getElem? hd)
      exact (sound_of_starting rfl).2 ⟨rfl, rfl⟩
  · intro m w hreq
    obtain ⟨d, hd, hwaits⟩ := h.issuer_waits m w hreq
    exact ⟨d, by rw [load_runs, List.getElem?_append_left (List.getElem?_eq_some_iff.1 hd).1, hd], hwaits⟩

/-- Running a sequence again keeps the invariant. -/
theorem State.Inv.restart (m : Nat) : (s.restart m).Inv := by
  cases hc : s.runs[m]? with
  | none => rw [restart_of_none hc]; exact h
  | some d =>
    rw [restart_of_some hc]
    rcases again_cases d with hsame | ⟨hover, hfresh⟩
    · rw [hsame, setRun_self hc]; exact h
    · rw [hfresh]
      refine h.setRun hc (fun hp => ?_) Phase.noConfusion ((sound_of_starting rfl).2 ⟨rfl, rfl⟩)
      rcases hover with hover | ⟨res, hover⟩ <;> rw [hover] at hp <;> cases hp

/-- A host that takes a response in keeps the invariant: it does what its statement does. -/
theorem State.Inv.receive {r : RspWord} (hc : s.runs[n]? = some c) (hp : c.phase = .received r) :
    (s.setRun n (c.receive r)).Inv := by
  have hwas : c.phase ≠ .waiting := by rw [hp]; exact Phase.noConfusion
  obtain ⟨hcourse, i, ⟨st, hst, hi⟩, rfl⟩ := (sound_of_received hp).1 (h.runs_sound n c hc)
  rcases receive_responseOf hst hi with ⟨env, he, hrecv⟩ | ⟨res, he, hrecv⟩ <;> rw [hrecv]
  · exact h.setRun hc hwas Phase.noConfusion ((sound_of_ready rfl).2 (hcourse.goesOn hst he))
  · exact h.setRun hc hwas Phase.noConfusion ((sound_of_finished (finish_phase ..)).2 ⟨hcourse, st, hst, he⟩)

/-- A host that starts its sequence keeps the invariant, whether the checks pass or not. -/
theorem State.Inv.start (hc : s.runs[n]? = some c) (hp : c.phase = .starting) : (s.setRun n c.start).Inv := by
  have hwas : c.phase ≠ .waiting := by rw [hp]; exact Phase.noConfusion
  obtain ⟨henv, hk⟩ := (sound_of_starting hp).1 (h.runs_sound n c hc)
  cases hwf : c.wellFormed with
  | true =>
    rw [start_of_wellFormed hwf]
    exact h.setRun hc hwas Phase.noConfusion ((sound_of_ready rfl).2 (Run.onCourse_start hwf))
  | false =>
    rw [start_of_not_wellFormed hwf]
    exact h.setRun hc hwas Phase.noConfusion ((sound_of_refused rfl).2 ⟨hwf, henv, hk⟩)

/-- Every move of a host keeps the invariant; a run on course never lacks what it needs to go on. -/
theorem State.Inv.hostMove (m : Nat) : (s.hostMove m).Inv := by
  cases hostMove_cases s m with
  | waited ht => rw [ht]; exact h
  | started d hd hp ht => rw [ht]; exact h.start hd hp
  | refused d hd hp hb ht =>
    exfalso
    obtain ⟨st, hst, hne⟩ := ((sound_of_ready hp).1 (h.runs_sound m d hd)).statement
    rcases hb with hnone | ⟨st', hst', hret, hnoInstr⟩ | ⟨x, hst', hunbound⟩
    · cases hst.symm.trans hnone
    · obtain rfl : st = st' := Option.some.inj (hst.symm.trans hst')
      obtain ⟨i, hi⟩ := instr?_of_effect hne hret
      cases hi.symm.trans hnoInstr
    · obtain rfl : st = .ret x := Option.some.inj (hst.symm.trans hst')
      exact hne (by simp only [Stmt.effect, hunbound])
  | returned d hd hp x v hst hv ht =>
    rw [ht]
    have hwas : d.phase ≠ .waiting := by rw [hp]; exact Phase.noConfusion
    have hcourse := (sound_of_ready hp).1 (h.runs_sound m d hd)
    exact h.setRun hd hwas Phase.noConfusion
      ((sound_of_finished (finish_phase ..)).2 ⟨hcourse, _, hst, effect_ret hv⟩)
  | issued d hd hp st i hst hi hfree ht =>
    rw [ht]
    exact h.issueFor hd ((sound_of_ready hp).1 (h.runs_sound m d hd)) ⟨st, hst, hi⟩ hfree
  | received d hd r hp ht => rw [ht]; exact h.receive hd hp

end oneRun

/-- Settles O45: whichever agent moved, its move keeps the invariant. -/
theorem everyStepKeepsTheInvariant : Obligations.EveryStepKeepsTheInvariant := by
  intro s t h hstep
  cases step_next hstep with
  | idle sc ht => rw [ht]; exact h.withSched sc
  | served sc o i hr hd ht => rw [ht]; exact (h.withSched sc).respond hr hd
  | host sc n ht => rw [ht]; exact (h.withSched sc).hostMove n
  | asked sc w _ hfree ht => rw [ht]; exact (h.withSched sc).issueOutside hfree w
  | loaded sc inputs body _ ht => rw [ht]; exact (h.withSched sc).load inputs body
  | restarted sc n _ ht => rw [ht]; exact (h.withSched sc).restart n
  | wasReset sc _ ht => rw [ht]; exact (h.withSched sc).takeReset

end Sys2Proof.Machine
end

section
/-! The check that walks a body passes exactly the sequences that meet the conditions of 44_sequences.md R74. The conditions
on one statement are stated under the kinds of the names bound before it; the check is those conditions at every index, and
those kinds are what `BoundBefore` says. -/
namespace Sys2Proof.Machine

/-- The kinds bound after a statement. -/
def Stmt.kindsAfter (ctx : KindEnv) (st : Stmt) : KindEnv :=
  match st.binds with
  | some b => b :: ctx
  | none => ctx

/-- The kinds bound when statement `j` of a body runs. -/
def kindsAt (ctx : KindEnv) (body : List Stmt) (j : Nat) : KindEnv := (body.take j).foldl Stmt.kindsAfter ctx

/-- Every name read is bound to a value of the kind its position needs, if it needs one. -/
def ReadsBound (ctx : KindEnv) (reads : List (Ident × Option Kind)) : Prop :=
  ∀ x need, (x, need) ∈ reads → ∃ κ, lookup ctx x = some κ ∧ ∀ k, need = some k → κ = k

/-- The conditions of 44_sequences.md R74 on one statement, under the kinds of the names bound before it. -/
structure Stmt.MeetsRules (ctx : KindEnv) (st : Stmt) : Prop where
  reads : ReadsBound ctx st.reads
  fresh : ∀ d κ, st.binds = some (d, κ) → lookup ctx d = none
  nine : ∀ bs, st.tmpl? = some (.lit bs) → bs.length = 9

/-- `RETURN` is the last statement of a body and no other. -/
def ReturnLast (body : List Stmt) : Prop :=
  body ≠ [] ∧ ∀ (j : Nat) (st : Stmt), body[j]? = some st → ((∃ x, st = .ret x) ↔ j + 1 = body.length)

/-- What holds of every element of a list, by its place, holds of the head and of the tail one place on. -/
theorem forall_getElem?_cons {α : Type} {a : α} {l : List α} {P : Nat → α → Prop} :
    (∀ j b, (a :: l)[j]? = some b → P j b) ↔ P 0 a ∧ ∀ j b, l[j]? = some b → P (j + 1) b := by
  constructor
  · exact fun h => ⟨h 0 a rfl, fun j b hb => h (j + 1) b hb⟩
  · rintro ⟨h0, hs⟩ j b hb
    cases j with
    | zero => cases hb; exact h0
    | succ j => exact hs j b hb

/-- One more statement. -/
theorem kindsAt_succ {ctx : KindEnv} {body : List Stmt} {j : Nat} {st : Stmt} (h : body[j]? = some st) :
    kindsAt ctx body (j + 1) = st.kindsAfter (kindsAt ctx body j) := by
  simp [kindsAt, List.take_add_one, h]

theorem kindsAt_succ_of_none {ctx : KindEnv} {body : List Stmt} {j : Nat} (h : body[j]? = none) :
    kindsAt ctx body (j + 1) = kindsAt ctx body j := by
  simp [kindsAt, List.take_add_one, h]

theorem returnLast_ret_cons {x : Ident} {rest : List Stmt} : ReturnLast (.ret x :: rest) ↔ rest = [] := by
  constructor
  · intro ⟨_, h⟩
    have hlen := (h 0 _ rfl).1 ⟨x, rfl⟩
    simpa [eq_comm] using hlen
  · rintro rfl
    exact ⟨List.cons_ne_nil _ _, forall_getElem?_cons.2 ⟨⟨fun _ => rfl, fun _ => ⟨x, rfl⟩⟩, nofun⟩⟩

theorem returnLast_cons {st : Stmt} {rest : List Stmt} (h : ∀ x, st ≠ .ret x) :
    ReturnLast (st :: rest) ↔ ReturnLast rest := by
  have hst : ¬ ∃ x, st = .ret x := fun ⟨x, hx⟩ => h x hx
  simp only [ReturnLast, forall_getElem?_cons, hst, false_iff, List.length_cons, Nat.add_right_cancel_iff, ne_eq,
    reduceCtorEq, not_false_eq_true, true_and, List.length_eq_zero_iff, eq_comm (a := 0)]

theorem readsBound_append {ctx : KindEnv} {l l' : List (Ident × Option Kind)} :
    ReadsBound ctx (l ++ l') ↔ ReadsBound ctx l ∧ ReadsBound ctx l' := by
  simp only [ReadsBound, List.mem_append, or_imp, forall_and]

theorem NumOperand.checks_iff_readsBound {ctx : KindEnv} {v : NumOperand} :
    v.checks ctx = true ↔ ReadsBound ctx v.reads := by
  cases v <;> simp [NumOperand.checks, NumOperand.reads, ReadsBound]

theorem TmplOperand.checks_iff_readsBound {ctx : KindEnv} {t : TmplOperand} :
    t.checks ctx = true ↔ ReadsBound ctx t.reads ∧ ∀ bs, t = .lit bs → bs.length = 9 := by
  cases t <;> simp [TmplOperand.checks, TmplOperand.reads, ReadsBound]

theorem meetsRules_iff {ctx : KindEnv} {st : Stmt} : st.MeetsRules ctx ↔ ReadsBound ctx st.reads ∧
    (∀ bs, st.tmpl? = some (.lit bs) → bs.length = 9) ∧ ∀ d κ, st.binds = some (d, κ) → lookup ctx d = none :=
  ⟨fun h => ⟨h.reads, h.nine, h.fresh⟩, fun ⟨hreads, hnine, hfresh⟩ => ⟨hreads, hfresh, hnine⟩⟩

section perStatement
/-! The conditions on a statement, form by form, as the walk checks them. -/
variable {ctx : KindEnv} {d x : Ident} {t : TmplOperand} {v lo hi : NumOperand}

theorem meetsRules_writeValue :
    (Stmt.writeValue d t v).MeetsRules ctx ↔ t.checks ctx = true ∧ v.checks ctx = true ∧ fresh ctx d = true := by
  simp [meetsRules_iff, TmplOperand.checks_iff_readsBound, NumOperand.checks_iff_readsBound, fresh_iff, Stmt.reads,
    readsBound_append, Stmt.binds, Stmt.tmpl?, and_assoc, and_left_comm]

theorem meetsRules_checksum :
    (Stmt.checksum d t).MeetsRules ctx ↔ t.checks ctx = true ∧ fresh ctx d = true := by
  simp [meetsRules_iff, TmplOperand.checks_iff_readsBound, fresh_iff, Stmt.reads, Stmt.binds, Stmt.tmpl?, and_assoc]

theorem meetsRules_packetize :
    (Stmt.packetize d t).MeetsRules ctx ↔ t.checks ctx = true ∧ fresh ctx d = true := by
  simp [meetsRules_iff, TmplOperand.checks_iff_readsBound, fresh_iff, Stmt.reads, Stmt.binds, Stmt.tmpl?, and_assoc]

theorem meetsRules_range : (Stmt.range v lo hi).MeetsRules ctx ↔
    v.checks ctx = true ∧ lo.checks ctx = true ∧ hi.checks ctx = true := by
  simp [meetsRules_iff, NumOperand.checks_iff_readsBound, Stmt.reads, readsBound_append, Stmt.binds, Stmt.tmpl?]

theorem meetsRules_ret : (Stmt.ret x).MeetsRules ctx ↔ (lookup ctx x).isSome = true := by
  simp [meetsRules_iff, ReadsBound, Stmt.reads, Stmt.binds, Stmt.tmpl?, Option.isSome_iff_exists]

end perStatement

/-- The walk at a RETURN. -/
theorem bodyChecks_ret_cons {ctx : KindEnv} {x : Ident} {rest : List Stmt} :
    bodyChecks ctx (.ret x :: rest) = true ↔ (Stmt.ret x).MeetsRules ctx ∧ rest = [] := by
  rw [meetsRules_ret, bodyChecks, Bool.and_eq_true, List.isEmpty_iff]

/-- The walk at any other statement. -/
theorem bodyChecks_cons {ctx : KindEnv} {st : Stmt} {rest : List Stmt} (h : ∀ x, st ≠ .ret x) :
    bodyChecks ctx (st :: rest) = true ↔ st.MeetsRules ctx ∧ bodyChecks (st.kindsAfter ctx) rest = true := by
  cases st with
  | ret x => exact absurd rfl (h x)
  | writeValue d t v => simp [bodyChecks, meetsRules_writeValue, Stmt.kindsAfter, Stmt.binds, and_assoc]
  | checksum d t => simp [bodyChecks, meetsRules_checksum, Stmt.kindsAfter, Stmt.binds, and_assoc]
  | packetize d t => simp [bodyChecks, meetsRules_packetize, Stmt.kindsAfter, Stmt.binds, and_assoc]
  | range v lo hi => simp [bodyChecks, meetsRules_range, Stmt.kindsAfter, Stmt.binds, and_assoc]

/-- The walk over a body passes exactly when every statement meets its conditions where it stands and RETURN is last. -/
theorem bodyChecks_iff {ctx : KindEnv} {body : List Stmt} : bodyChecks ctx body = true ↔
    (∀ (j : Nat) (st : Stmt), body[j]? = some st → st.MeetsRules (kindsAt ctx body j)) ∧ ReturnLast body := by
  induction body generalizing ctx with
  | nil => exact ⟨nofun, fun h => absurd rfl h.2.1⟩
  | cons st rest ih =>
    rw [forall_getElem?_cons]
    by_cases hret : ∃ x, st = .ret x
    · obtain ⟨x, rfl⟩ := hret
      rw [bodyChecks_ret_cons, returnLast_ret_cons]
      constructor
      · rintro ⟨hmeets, rfl⟩
        exact ⟨⟨hmeets, nofun⟩, rfl⟩
      · exact fun h => ⟨h.1.1, h.2⟩
    · have hst : ∀ x, st ≠ .ret x := fun x hx => hret ⟨x, hx⟩
      rw [bodyChecks_cons hst, returnLast_cons hst, ih, and_assoc]
      rfl

section bound
variable {inputs : List Ident} {body : List Stmt} {j : Nat} {x : Ident}

/-- One more statement binds its `<dst>` and nothing else. -/
theorem boundBefore_succ {κ : Kind} : BoundBefore inputs body (j + 1) x κ ↔
    BoundBefore inputs body j x κ ∨ ∃ st, body[j]? = some st ∧ st.binds = some (x, κ) := by
  simp only [BoundBefore, Nat.lt_succ_iff_lt_or_eq, or_assoc]
  constructor
  · rintro (hin | ⟨i, st, hi | rfl, hst⟩)
    · exact .inl hin
    · exact .inr (.inl ⟨i, st, hi, hst⟩)
    · exact .inr (.inr ⟨st, hst⟩)
  · rintro (hin | ⟨i, st, hi, hst⟩ | ⟨st, hst⟩)
    · exact .inl hin
    · exact .inr ⟨i, st, .inl hi, hst⟩
    · exact .inr ⟨j, st, .inr rfl, hst⟩

/-- The kinds bound when statement `j` of a body runs, from the inputs on. -/
def inputKindsAt (inputs : List Ident) (body : List Stmt) (j : Nat) : KindEnv :=
  kindsAt (inputs.map fun y => (y, .num)) body j

/-- A statement's own `<dst>` hides an earlier binding of the same name. -/
theorem lookup_kindsAfter {ctx : KindEnv} {st : Stmt} {κ : Kind} :
    lookup (st.kindsAfter ctx) x = some κ ↔
      st.binds = some (x, κ) ∨ lookup ctx x = some κ ∧ ∀ κ', st.binds ≠ some (x, κ') := by
  unfold Stmt.kindsAfter
  split
  · rename_i b hb
    obtain ⟨d, κ'⟩ := b
    by_cases hd : d = x
    · subst hd; simp [hb, lookup_cons_self]
    · simp [hb, lookup_cons_ne _ _ _ _ hd, hd]
  · rename_i hb
    simp [hb]

theorem lookup_kindsAfter_eq_none {ctx : KindEnv} {st : Stmt} :
    lookup (st.kindsAfter ctx) x = none ↔ lookup ctx x = none ∧ ∀ κ, st.binds ≠ some (x, κ) := by
  simp only [Option.eq_none_iff_forall_ne_some, ne_eq, lookup_kindsAfter, not_or, not_and, forall_and]
  exact ⟨fun ⟨hb, hl⟩ => ⟨fun κ h => hl κ h hb, hb⟩, fun ⟨hl, hb⟩ => ⟨hb, fun κ h => absurd h (hl κ)⟩⟩

/-- No kind is known for a name exactly when nothing binds it before. -/
theorem lookup_inputKindsAt_eq_none :
    lookup (inputKindsAt inputs body j) x = none ↔ ∀ κ, ¬ BoundBefore inputs body j x κ := by
  induction j with
  | zero =>
    simp only [Option.eq_none_iff_forall_ne_some, boundBefore_zero, ← lookup_inputs]
    rfl
  | succ j ih =>
    cases hst : body[j]? with
    | none =>
      simp only [inputKindsAt, kindsAt_succ_of_none hst, boundBefore_succ, hst, reduceCtorEq, false_and, exists_false,
        or_false]
      exact ih
    | some st =>
      simp only [inputKindsAt, kindsAt_succ hst, lookup_kindsAfter_eq_none, boundBefore_succ, hst, Option.some.injEq,
        not_or, forall_and, exists_eq_left']
      exact and_congr_left' ih

/-- When every `<dst>` is fresh, the kind known for a name is the one it was bound with. -/
theorem lookup_inputKindsAt {κ : Kind} (hfresh : ∀ (i : Nat) (st : Stmt) (d : Ident) (κ κ' : Kind), body[i]? = some st →
      st.binds = some (d, κ) → ¬ BoundBefore inputs body i d κ') :
    lookup (inputKindsAt inputs body j) x = some κ ↔ BoundBefore inputs body j x κ := by
  induction j with
  | zero => rw [boundBefore_zero, ← lookup_inputs]; rfl
  | succ j ih =>
    cases hst : body[j]? with
    | none =>
      simp only [inputKindsAt, kindsAt_succ_of_none hst, boundBefore_succ, hst, reduceCtorEq, false_and, exists_false,
        or_false]
      exact ih
    | some st =>
      rw [inputKindsAt, kindsAt_succ hst, lookup_kindsAfter, boundBefore_succ, or_comm]
      simp only [hst, Option.some.injEq, exists_eq_left']
      exact or_congr_left ⟨fun h => ih.1 h.1, fun h => ⟨ih.2 h, fun κ' hb => hfresh j st x κ' κ hst hb h⟩⟩

end bound

/-- The walk over the body passes, from the inputs on, exactly when R74 holds of it. -/
theorem sequenceWellFormed_iff (inputs : List Ident) (body : List Stmt) :
    sequenceWellFormed inputs body = true ↔ SequenceRules inputs body := by
  rw [sequenceWellFormed, Bool.and_eq_true, decide_eq_true_iff, bodyChecks_iff]
  constructor
  · rintro ⟨hdistinct, hmeets, hlast⟩
    have hfresh (i st d κ κ') (hst : body[i]? = some st) (hb : st.binds = some (d, κ)) :
        ¬ BoundBefore inputs body i d κ' :=
      lookup_inputKindsAt_eq_none.1 ((hmeets i st hst).fresh d κ hb) κ'
    refine ⟨hdistinct, fun j st x need hst hx => ?_, hfresh, fun j st x need κ hst hx hbound => ?_,
      fun j st bs hst => (hmeets j st hst).nine bs, hlast⟩
    · obtain ⟨κ, hκ, -⟩ := (hmeets j st hst).reads x need hx
      exact ⟨κ, (lookup_inputKindsAt hfresh).1 hκ⟩
    · obtain ⟨κ', hκ', hneed⟩ := (hmeets j st hst).reads x (some need) hx
      rw [← hneed need rfl]
      exact Option.some.inj (((lookup_inputKindsAt hfresh).2 hbound).symm.trans hκ')
  · intro h
    refine ⟨h.inputs_distinct, fun j st hst => ?_, h.return_last⟩
    refine ⟨fun x need hx => ?_, fun d κ hb => ?_, fun bs => h.literals_nine j st bs hst⟩
    · obtain ⟨κ, hbound⟩ := h.reads_bound j st x need hst hx
      refine ⟨κ, (lookup_inputKindsAt h.dst_fresh).2 hbound, fun k hk => ?_⟩
      subst hk
      exact h.kinds_match j st x k κ hst hx hbound
    · exact lookup_inputKindsAt_eq_none.2 fun κ' => h.dst_fresh j st d κ κ' hst hb

/-- Settles O53: at every statement the kinds the walk knows are those of the names the rule calls bound. -/
theorem wellFormedMeansTheConditionsOfTheRule : Obligations.WellFormedMeansTheConditionsOfTheRule :=
  sequenceWellFormed_iff

end Sys2Proof.Machine
end

section
/-! What a host's move makes of its run, from the schedule on (44_sequences.md R74 to R77). -/
namespace Sys2Proof.Machine

/-- Settles O35: the host's first move is the check, and the check is the conditions of the rule. -/
theorem sequencesAreCheckedBeforeTheyRun : Obligations.SequencesAreCheckedBeforeTheyRun := by
  intro s n rest c hs hc hp
  have hrules : c.wellFormed = true ↔ SequenceRules (c.inputs.map Prod.fst) c.body := sequenceWellFormed_iff ..
  obtain ⟨hinputs, hbody⟩ := start_keeps c
  refine ⟨_, c.start, step_of_run hs, ?_⟩
  rw [hostMove_of_starting (s := s.withSched rest) hc hp]
  refine ⟨rfl, rfl, rfl, rfl, hinputs, hbody, fun hbroken => ?_, fun hmet => ?_⟩
  · rw [start_of_not_wellFormed (Bool.eq_false_iff.2 fun hwf => hbroken (hrules.1 hwf))]
    exact ⟨rfl, rfl, rfl⟩
  · rw [start_of_wellFormed (hrules.2 hmet)]
    exact ⟨rfl, rfl, rfl⟩

/-- Settles O36: the block is free, so the host issues its request. -/
theorem hostIssuesTheRequestOfItsStatement : Obligations.HostIssuesTheRequestOfItsStatement := by
  intro s n rest c st i hs hc hp hst hi hfree
  refine ⟨_, step_of_run hs, ?_⟩
  rw [hostMove_of_operation (s := s.withSched rest) hc hp hst hi hfree]
  exact ⟨rfl, rfl, rfl, decode_encode i (wellFormed_of_instr? hi)⟩

section effects
variable {env : Env} {d : Ident} {t : TmplOperand} {bs : List Byte}

/-- The effect of the statement that issued WRITE_VALUE (44_sequences.md R75). -/
theorem effect_writeValue {x : NumOperand} {v : Half}
    (hi : (Stmt.writeValue d t x).instr? env = some (.writeValue bs v)) :
    (Stmt.writeValue d t x).effect env = .goesOn ((d, .template (injectValue bs v)) :: env) := by
  simp only [Stmt.instr?] at hi
  split at hi
  · rename_i ht hx; cases hi; simp only [Stmt.effect, ht, hx]
  · cases hi

/-- The effect of the statement that issued CHECKSUM (44_sequences.md R75). -/
theorem effect_checksum (hi : (Stmt.checksum d t).instr? env = some (.checksum bs)) :
    (Stmt.checksum d t).effect env = .goesOn ((d, .checksum (checksumOf bs)) :: env) := by
  obtain ⟨_, ht, ⟨⟩⟩ := Option.map_eq_some_iff.1 hi
  simp only [Stmt.effect, ht]

/-- The effect of the statement that issued PACKETIZE (44_sequences.md R75). -/
theorem effect_packetize (hi : (Stmt.packetize d t).instr? env = some (.packetize bs)) :
    (Stmt.packetize d t).effect env = .goesOn ((d, .frame (frameOf bs)) :: env) := by
  obtain ⟨_, ht, ⟨⟩⟩ := Option.map_eq_some_iff.1 hi
  simp only [Stmt.effect, ht]

end effects

/-- A host that takes the response in goes on with the environment its statement leaves. -/
theorem receive_of_goesOn {c : Run} {st : Stmt} {i : Instr} {env : Env} (hst : c.body[c.k]? = some st)
    (hi : st.instr? c.env = some i) (he : st.effect c.env = .goesOn env) :
    c.receive (responseOf i).pack = { c with env := env, k := c.k + 1, phase := .ready } := by
  rcases receive_responseOf hst hi with ⟨env', he', hrecv⟩ | ⟨res, he', -⟩
  · obtain rfl : env' = env := StmtEffect.goesOn.inj (he'.symm.trans he)
    exact hrecv
  · cases he'.symm.trans he

/-- Settles O37: in each of the three cases the statement's effect is to bind the value. -/
theorem hostBindsTheResponse : Obligations.HostBindsTheResponse := by
  intro s n rest c st i d v hs hc hp hst hi hcase
  have he : st.effect c.env = .goesOn ((d, v) :: c.env) := by
    rcases hcase with ⟨t, x, bs, value, rfl, rfl, rfl⟩ | ⟨t, bs, rfl, rfl, rfl⟩ | ⟨t, bs, rfl, rfl, rfl⟩
    · exact effect_writeValue hi
    · exact effect_checksum hi
    · exact effect_packetize hi
  rw [step_of_run hs, hostMove_of_received (s := s.withSched rest) hc hp, receive_of_goesOn hst hi he]
  rfl

/-- A host takes in a failed RANGE (44_sequences.md R76). -/
theorem receive_range_of_failed {c : Run} {v a b : NumOperand} {r : RspWord} (hst : c.body[c.k]? = some (.range v a b))
    (hr : rspStatus r = true) : c.receive r = c.finish (.invalidRange (rspStart r) (rspEnd r)) := by
  simp only [Run.receive, hst, hr, if_true]

/-- A host takes in a RANGE that passed (44_sequences.md R75). -/
theorem receive_range_of_passed {c : Run} {v a b : NumOperand} {r : RspWord} (hst : c.body[c.k]? = some (.range v a b))
    (hr : rspStatus r = false) : c.receive r = { c with k := c.k + 1, phase := .ready } := by
  simp only [Run.receive, hst, hr, Bool.false_eq_true, if_false]

/-- Settles O38: the status bit, the start and the end are fields of the response word. -/
theorem failedGuardEndsTheSequence : Obligations.FailedGuardEndsTheSequence := by
  intro s n rest c v a b r hs hc hp hst
  rw [step_of_run hs, hostMove_of_received (s := s.withSched rest) hc hp]
  constructor
  · intro hr; rw [receive_range_of_failed hst hr]; rfl
  · intro hr; rw [receive_range_of_passed hst hr]; rfl

/-- Settles O39: the run is ready at a RETURN of a bound name. -/
theorem returnEndsWithTheBoundValue : Obligations.ReturnEndsWithTheBoundValue := by
  intro s n rest c x v hs hc hp hst hv
  rw [step_of_run hs, hostMove_of_return (s := s.withSched rest) hc hp hst hv]
  rfl

/-- Settles O41: running it again puts the fresh run of its sequence in its place. -/
theorem abandonedRunsMayRunAgain : Obligations.AbandonedRunsMayRunAgain := by
  intro s n rest c hs hc hp
  rw [step_of_sched hs, State.scheduledTurn, restart_of_some (s := s.withSched rest) hc, again_of_ended hp]
  rfl

end Sys2Proof.Machine
end

section
/-! What a step leaves of the runs: the sequences as they were loaded, and a run that is over as it was. -/
namespace Sys2Proof.Machine

/-- What was loaded: the inputs and the body of a run. -/
def Run.sequence (c : Run) : List (Ident × Half) × List Stmt := (c.inputs, c.body)

theorem Run.sequence_eq_iff {c c' : Run} : c'.sequence = c.sequence ↔ c'.inputs = c.inputs ∧ c'.body = c.body :=
  Prod.mk.injEq .. ▸ Iff.rfl

/-- The move of a host puts back its own run at most, with the sequence it had. -/
theorem hostMove_runs (s : State) (n : Nat) : (s.hostMove n).runs = s.runs ∨
    ∃ c c', s.runs[n]? = some c ∧ (s.hostMove n).runs = s.runs.set n c' ∧ c'.sequence = c.sequence := by
  cases hostMove_cases s n with
  | waited ht => exact .inl (by rw [ht])
  | started c hc _ ht => exact .inr ⟨c, c.start, hc, by rw [ht, setRun_runs], Run.sequence_eq_iff.2 (start_keeps c)⟩
  | refused c hc _ _ ht => exact .inr ⟨c, c.refuse, hc, by rw [ht, setRun_runs], rfl⟩
  | returned c hc _ x v _ _ ht => exact .inr ⟨c, c.finish (.ok v), hc, by rw [ht, setRun_runs], rfl⟩
  | issued c hc _ st i _ _ _ ht => exact .inr ⟨c, { c with phase := .waiting }, hc, by rw [ht]; rfl, rfl⟩
  | received c hc r _ ht =>
    exact .inr ⟨c, c.receive r, hc, by rw [ht, setRun_runs], Run.sequence_eq_iff.2 (receive_keeps c r)⟩

/-- The move of a host leaves the run of every other. -/
theorem hostMove_runs_of_ne (s : State) {m n : Nat} (hne : m ≠ n) : (s.hostMove m).runs[n]? = s.runs[n]? := by
  rcases hostMove_runs s m with hsame | ⟨_, c', _, hset, _⟩
  · rw [hsame]
  · rw [hset, List.getElem?_set_ne hne]

/-- The move of a host keeps every sequence. -/
theorem sequences_hostMove (s : State) (n : Nat) :
    (s.hostMove n).runs.map Run.sequence = s.runs.map Run.sequence := by
  rcases hostMove_runs s n with hsame | ⟨c, c', hc, hset, hseq⟩
  · rw [hsame]
  · obtain ⟨hn, rfl⟩ := List.getElem?_eq_some_iff.1 hc
    rw [hset, List.map_set, hseq, ← List.map_set, List.set_getElem_self]

/-- Doing to one run something that keeps its sequence keeps every sequence. -/
theorem sequences_updateRun {f : Run → Run} (hf : ∀ c, (f c).sequence = c.sequence) (who : Requester) (runs : List Run) :
    (updateRun who f runs).map Run.sequence = runs.map Run.sequence := by
  apply List.ext_getElem?
  intro m
  rw [List.getElem?_map, List.getElem?_map]
  by_cases hm : who = .run m
  · rw [hm, getElem?_updateRun_self, Option.map_map]
    exact congrArg (Option.map · _) (funext hf)
  · rw [getElem?_updateRun_of_ne _ _ _ _ hm]

/-- A step keeps every sequence, or adds one that a host loads. -/
theorem sequences_of_step {s t : State} (h : step s = .next t) : t.runs.map Run.sequence = s.runs.map Run.sequence ∨
    ∃ inputs body rest, s.sched = .load inputs body :: rest ∧ t.runs = s.runs ++ [Run.fresh inputs body] := by
  cases step_next h with
  | idle sc ht => exact .inl (by rw [ht])
  | served sc o i _ _ ht =>
    left
    rw [ht, respond_runs]
    exact sequences_updateRun (f := Run.deliver _) (fun _ => rfl) _ _
  | host sc n ht => exact .inl (by rw [ht, sequences_hostMove])
  | asked sc w _ _ ht => exact .inl (by rw [ht, issue_runs])
  | loaded sc inputs body hs ht => exact .inr ⟨inputs, body, sc, hs, by rw [ht, load_runs]⟩
  | restarted sc n _ ht =>
    left
    rw [ht, restart_runs]
    exact sequences_updateRun (fun c => Run.sequence_eq_iff.2 (again_keeps c)) (.run n) _
  | wasReset sc _ ht =>
    left
    rw [ht, takeReset_runs]
    exact sequences_updateRun (f := Run.abandon) (fun _ => rfl) _ _

/-- Settles O42: the sequences are the same list, or the same list with one more at its end. -/
theorem sequencesStayAsLoaded : Obligations.SequencesStayAsLoaded := by
  intro s t n c h hc
  rcases sequences_of_step h with hsame | ⟨inputs, body, rest, hs, hruns⟩
  · have hmap : (t.runs[n]?).map Run.sequence = some c.sequence := by
      rw [← List.getElem?_map, hsame, List.getElem?_map, hc, Option.map_some]
    obtain ⟨c', hc', hseq⟩ := Option.map_eq_some_iff.1 hmap
    exact ⟨⟨c', hc', Run.sequence_eq_iff.1 hseq⟩, .inl (by simpa using congrArg List.length hsame)⟩
  · have hn : n < s.runs.length := (List.getElem?_eq_some_iff.1 hc).1
    exact ⟨⟨c, by rw [hruns, List.getElem?_append_left hn, hc], rfl, rfl⟩, .inr ⟨inputs, body, rest, hs, hruns⟩⟩

/-- A run that is over has no move of its own (44_sequences.md R77). -/
theorem Phase.canMove_of_isOver {p : Phase} (h : p.isOver = true) : p.canMove = false := by
  revert h
  cases p <;> simp [Phase.isOver, Phase.canMove]

/-- Settles O40: a host whose run is over has no move to make, a host moves its own run alone, and the block and the reset
touch the run that waits. -/
theorem endedRunsIssueNothing : Obligations.EndedRunsIssueNothing := by
  intro s t n c h hc hover hstep
  have hstays (sc : List Move) : (s.withSched sc).hostMove n = s.withSched sc :=
    hostMove_of_not_canMove (s := s.withSched sc) hc (Phase.canMove_of_isOver hover)
  have hissuer : s.issuer ≠ .run n := by
    intro hn
    obtain ⟨d, i, hd, hwaits, -⟩ := h.waiting_of_issuer hn
    obtain rfl : c = d := Option.some.inj (hc.symm.trans hd)
    rw [hwaits] at hover
    cases hover
  refine ⟨fun rest hs => ?_, fun hrestart => ?_⟩
  · rw [step_of_run hs, hstays] at hstep
    injection hstep with ht
    exact ht.symm
  · cases step_next hstep with
    | idle sc ht => rw [ht]; exact hc
    | served sc o i _ _ ht => rw [ht, respond_runs_of_ne (s := s.withSched sc) hissuer]; exact hc
    | host sc m ht =>
      by_cases hm : m = n
      · rw [ht, hm, hstays]; exact hc
      · rw [ht, hostMove_runs_of_ne _ hm]; exact hc
    | asked sc w _ _ ht => rw [ht]; exact hc
    | loaded sc inputs body _ ht =>
      rw [ht, load_runs, List.getElem?_append_left (List.getElem?_eq_some_iff.1 hc).1]
      exact hc
    | restarted sc m hs ht =>
      have hm : Requester.run m ≠ .run n := by
        rintro ⟨⟩
        exact hrestart sc hs
      rw [ht, restart_runs]
      exact (getElem?_updateRun_of_ne (.run m) n _ _ hm).trans hc
    | wasReset sc _ ht =>
      rw [ht, takeReset_runs]
      exact (getElem?_updateRun_of_ne _ _ _ _ hissuer).trans hc

end Sys2Proof.Machine
end

section
/-! A well-formed sequence determines a result (44_sequences.md R77), and the guarded pipeline (R79). -/
namespace Sys2Proof.Machine

/-- A checked body comes to a result under every environment of the kinds it was checked for. -/
theorem Compatible.result {ctx : KindEnv} {env : Env} {body : List Stmt} (h : Compatible ctx env)
    (hchecks : bodyChecks ctx body = true) : ∃ res, resultFrom env body = some res := by
  induction body generalizing ctx env with
  | nil => cases hchecks
  | cons st rest ih =>
    rcases h.effect hchecks with ⟨env', ctx', he, h', hrest, -⟩ | ⟨res, he⟩
    · simp only [resultFrom, he]
      exact ih h' hrest
    · exact ⟨res, by simp only [resultFrom, he]⟩

/-- Settles O43: the inputs are of the kinds the checks assume. -/
theorem wellFormedSequencesDetermineAResult : Obligations.WellFormedSequencesDetermineAResult :=
  fun inputs _ hwf => (compatible_inputEnv inputs).result (Bool.and_eq_true_iff.1 hwf).2

/-- The guarded pipeline `RANGE v, lo, hi`, `FRAME f, t, v`, `RETURN f`, written out (44_sequences.md R79). -/
def guardedBody (t : List Byte) (lo hi : Half) : List Stmt :=
  [.range (.name (.user "v")) (.lit lo) (.lit hi), .writeValue (.temp 1) (.lit t) (.name (.user "v")),
    .packetize (.user "f") (.name (.temp 1)), .ret (.user "f")]

theorem toNum_name (x : String) : (SrcOperand.name x).toNum = .ok (.name (.user x)) := rfl

/-- A literal in range is taken as it is (30_encoding.md R51). -/
theorem toNum_of_le {n : Nat} (h : n ≤ 65535) : (SrcOperand.lit n).toNum = .ok (.lit (BitVec.ofNat 16 n)) :=
  if_pos (Nat.lt_succ_of_le h)

section assembled
variable {bs : List Nat} {hi : Nat} (hlen : bs.length = 9) (hbytes : ∀ b ∈ bs, b ≤ 255) (hhi : hi ≤ 65535)
include hlen hbytes hhi

/-- The pipeline with both bounds assembles to its body. -/
theorem assemble_guarded {lo : Nat} (hlo : lo ≤ 65535) :
    assemble [.range (.name "v") (.lit lo) (.lit hi), .frameValue "f" (.bytes bs) (.name "v"), .ret "f"] =
      .ok (guardedBody (bs.map (BitVec.ofNat 8)) (BitVec.ofNat 16 lo) (BitVec.ofNat 16 hi)) := by
  simp [assemble, assembleFrom, SrcStmt.expand, asmRange, asmWriteValue, toNum_name, toNum_of_le hlo, toNum_of_le hhi,
    toTmpl_of_bytes hlen hbytes, Except.map, guardedBody]

/-- With a maximum only, the minimum is 0 (30_encoding.md R52). -/
theorem assemble_guardedMax :
    assemble [.rangeMax (.name "v") (.lit hi), .frameValue "f" (.bytes bs) (.name "v"), .ret "f"] =
      .ok (guardedBody (bs.map (BitVec.ofNat 8)) 0#16 (BitVec.ofNat 16 hi)) := by
  simp [assemble, assembleFrom, SrcStmt.expand, asmRange, asmWriteValue, toNum_name, toNum_of_le hhi,
    toTmpl_of_bytes hlen hbytes, Except.map, guardedBody]

end assembled

section bodies
variable {t : List Byte} (ht : t.length = 9)
include ht

/-- The body of the pipeline passes the checks of 44_sequences.md R74. -/
theorem sequenceWellFormed_guardedBody (lo hi : Half) : sequenceWellFormed [.user "v"] (guardedBody t lo hi) = true := by
  simp [sequenceWellFormed, guardedBody, bodyChecks, TmplOperand.checks, NumOperand.checks, fresh, lookup, ht]

/-- The pipeline frames a value up to the maximum and reports the bounds above it (44_sequences.md R79). -/
theorem sequenceResult_guardedBody (lo hi x : Half) : sequenceResult [(.user "v", x)] (guardedBody t lo hi) =
    if x ≤ hi then some (.ok (.frame (frameOf (injectValue t x)))) else some (.invalidRange lo hi) := by
  by_cases hx : x ≤ hi
  · have hpass : ¬ hi < x := BitVec.not_lt.2 hx
    simp [sequenceResult, guardedBody, inputEnv, resultFrom, Stmt.effect, TmplOperand.eval, NumOperand.eval, lookup, ht,
      hx, hpass]
  · have hfail : hi < x := BitVec.not_le.1 hx
    simp [sequenceResult, guardedBody, inputEnv, resultFrom, Stmt.effect, NumOperand.eval, lookup, hx, hfail]

end bodies

/-- Settles O52: both sources assemble to the guarded body, whose result turns on the maximum alone. -/
theorem guardedPipelineFramesOrReportsBounds : Obligations.GuardedPipelineFramesOrReportsBounds := by
  intro bs lo hi x hlen hbytes hlo hhi
  have ht : (bs.map (BitVec.ofNat 8)).length = 9 := (List.length_map _).trans hlen
  have hmax : x ≤ BitVec.ofNat 16 hi ↔ x.toNat ≤ hi := by
    rw [BitVec.le_def, BitVec.toNat_ofNat, Nat.mod_eq_of_lt (Nat.lt_succ_of_le hhi)]
  refine ⟨⟨_, assemble_guarded hlen hbytes hhi hlo, sequenceWellFormed_guardedBody ht _ _, ?_⟩, ?_⟩
  · simp only [sequenceResult_guardedBody ht, hmax]
  · rw [assemble_guardedMax hlen hbytes hhi, assemble_guarded hlen hbytes hhi (Nat.zero_le _)]

end Sys2Proof.Machine
end

section
/-! Past a guard that its inputs fail, a run does not go (44_sequences.md R78). -/
namespace Sys2Proof.Machine

/-- A 16-bit operand keeps its value when bindings are added. -/
theorem Extends.num_eval {env env' : Env} (h : Extends env env') {v : NumOperand} {n : Half} (hv : v.eval env = some n) :
    v.eval env' = some n := by
  cases v with
  | lit m => exact hv
  | name x =>
    simp only [NumOperand.eval] at hv ⊢
    split at hv
    · rename_i w hx
      rw [h x _ hx]
      exact hv
    · cases hv

/-- The statement before the environment reached goes on from an environment that was reached. -/
theorem envAfter_succ_inv {k : Nat} : ∀ {body : List Stmt} {env₀ env : Env}, envAfter (k + 1) env₀ body = some env →
    ∃ env' st, envAfter k env₀ body = some env' ∧ body[k]? = some st ∧ st.effect env' = .goesOn env := by
  induction k with
  | zero =>
    intro body env₀ env h
    cases body with
    | nil => cases h
    | cons st rest =>
      simp only [envAfter] at h
      split at h
      · rename_i env' he
        cases h
        exact ⟨env₀, st, rfl, rfl, he⟩
      · cases h
      · cases h
  | succ k ih =>
    intro body env₀ env h
    cases body with
    | nil => cases h
    | cons st rest =>
      rw [envAfter] at h
      split at h
      · rename_i env' he
        obtain ⟨env'', st', henv, hst, he'⟩ := ih h
        exact ⟨env'', st', by simp only [envAfter, he, henv], hst, he'⟩
      · cases h
      · cases h

/-- Every environment before the one reached was reached too. -/
theorem envAfter_of_le {j k : Nat} (hjk : j ≤ k) {body : List Stmt} {env₀ env : Env}
    (h : envAfter k env₀ body = some env) :
    ∃ env', envAfter j env₀ body = some env' := by
  induction k, hjk using Nat.le_induction generalizing env with
  | base => exact ⟨env, h⟩
  | succ k _ ih =>
    obtain ⟨env', _, henv, -⟩ := envAfter_succ_inv h
    exact ih henv

/-- A guard whose value exceeds its maximum does not let a sequence go on (44_sequences.md R76). -/
theorem effect_range_ne_goesOn {env env' : Env} {v a b : NumOperand} {value max : Half} (hv : v.eval env = some value)
    (hb : b.eval env = some max) (hfails : max.toNat < value.toNat) :
    (Stmt.range v a b).effect env ≠ .goesOn env' := by
  have hlt : max < value := hfails
  simp only [Stmt.effect, hv, hb]
  cases a.eval env <;> simp [hlt]

/-- No frame is bound. -/
def NoFrame (env : Env) : Prop := ∀ x bs, lookup env x ≠ some (.frame bs)

/-- Only a RETURN ends a sequence with Ok (44_sequences.md R77). -/
theorem eq_ret_of_ends_ok {st : Stmt} {env : Env} {val : Val} (h : st.effect env = .ends (.ok val)) :
    ∃ x, st = .ret x := by
  cases st with
  | ret x => exact ⟨x, rfl⟩
  | writeValue d t v => simp only [Stmt.effect] at h; split at h <;> cases h
  | checksum d t => simp only [Stmt.effect] at h; split at h <;> cases h
  | packetize d t => simp only [Stmt.effect] at h; split at h <;> cases h
  | range v a b =>
    simp only [Stmt.effect] at h
    split at h
    · split at h <;> cases h
    · cases h

/-- Only a PACKETIZE statement issues PACKETIZE. -/
theorem eq_packetize_of_instr? {st : Stmt} {env : Env} {bs : List Byte} (h : st.instr? env = some (.packetize bs)) :
    ∃ d t, st = .packetize d t := by
  cases st with
  | packetize d t => exact ⟨d, t, rfl⟩
  | writeValue d t v => simp only [Stmt.instr?] at h; split at h <;> cases h
  | checksum d t => obtain ⟨_, _, h⟩ := Option.map_eq_some_iff.1 h; cases h
  | range v a b => simp only [Stmt.instr?] at h; split at h <;> cases h
  | ret x => cases h

/-- Binding a value of another kind binds no frame. -/
theorem noFrame_cons {env : Env} {d : Ident} {v : Val} (h : NoFrame env) (hv : v.kind ≠ .frame) :
    NoFrame ((d, v) :: env) := by
  intro x bs hx
  by_cases hd : d = x
  · subst hd
    rw [lookup_cons_self, Option.some.injEq] at hx
    exact hv (by rw [hx]; rfl)
  · rw [lookup_cons_ne _ _ _ _ hd] at hx
    exact h x bs hx

/-- Every input is a number. -/
theorem noFrame_inputEnv (inputs : List (Ident × Half)) : NoFrame (inputEnv inputs) := by
  induction inputs with
  | nil => exact fun x bs h => by cases h
  | cons p ps ih => exact noFrame_cons ih nofun

/-- Only a PACKETIZE binds a frame. -/
theorem noFrame_of_goesOn {st : Stmt} {env env' : Env} (h : NoFrame env) (hst : ∀ d t, st ≠ .packetize d t)
    (he : st.effect env = .goesOn env') : NoFrame env' := by
  cases st with
  | packetize d t => exact absurd rfl (hst d t)
  | writeValue d t v =>
    simp only [Stmt.effect] at he
    split at he <;> cases he
    exact noFrame_cons h nofun
  | checksum d t =>
    simp only [Stmt.effect] at he
    split at he <;> cases he
    exact noFrame_cons h nofun
  | range v a b =>
    simp only [Stmt.effect] at he
    split at he
    · split at he <;> cases he
      exact h
    · cases he
  | ret x =>
    simp only [Stmt.effect] at he
    split at he <;> cases he

/-- No frame is bound before the first PACKETIZE. -/
theorem noFrame_envAfter {k : Nat} {body : List Stmt} {env₀ env : Env} (h : NoFrame env₀)
    (hbody : ∀ j d t, j < k → body[j]? ≠ some (.packetize d t))
    (henv : envAfter k env₀ body = some env) : NoFrame env := by
  induction k generalizing env with
  | zero => cases henv; exact h
  | succ k ih =>
    obtain ⟨env', st, henv', hst, he⟩ := envAfter_succ_inv henv
    refine noFrame_of_goesOn (ih (fun j d t hj => hbody j d t (Nat.lt_succ_of_lt hj)) henv') (fun d t hp => ?_) he
    exact hbody k d t (Nat.lt_succ_self k) (hp ▸ hst)

section guarded
variable {c : Run} {g : Nat} {v a b : NumOperand} {value max : Half} (hg : c.body[g]? = some (.range v a b))
  (hv : v.eval (inputEnv c.inputs) = some value) (hb : b.eval (inputEnv c.inputs) = some max)
  (hfails : max.toNat < value.toNat)
include hg hv hb hfails

/-- A run on course never gets past a guard that its inputs fail. -/
theorem Run.OnCourse.k_le_of_guard_fails (h : c.OnCourse) : c.k ≤ g := by
  by_contra hpast
  obtain ⟨hwf, henv⟩ := h
  obtain ⟨env', hpassed⟩ := envAfter_of_le (Nat.lt_of_not_le hpast) henv
  obtain ⟨env, st, hat, hst, he⟩ := envAfter_succ_inv hpassed
  obtain rfl : Stmt.range v a b = st := Option.some.inj (hg.symm.trans hst)
  obtain ⟨_, _, _, hkept, _⟩ := envAfter_checks g (compatible_inputEnv c.inputs) (Run.bodyChecks_of_wellFormed hwf) hat
  exact effect_range_ne_goesOn (hkept.num_eval hv) (hkept.num_eval hb) hfails he

end guarded

/-- A sound run of a well-formed sequence is on course, or has not begun. -/
theorem Run.Sound.onCourse_or_notBegun {s : State} {n : Nat} {c : Run} (h : c.Sound s n) (hwf : c.wellFormed = true) :
    c.OnCourse ∨ c.env = [] ∧ c.k = 0 := by
  cases hp : c.phase with
  | starting => exact .inr ((sound_of_starting hp).1 h)
  | ready => exact .inl ((sound_of_ready hp).1 h)
  | waiting => exact .inl ((sound_of_waiting hp).1 h).1
  | received r => exact .inl ((sound_of_received hp).1 h).1
  | finished res => exact .inl ((sound_of_finished hp).1 h).1
  | abandoned => exact .inl ((sound_of_abandoned hp).1 h)
  | refused => exact absurd ((sound_of_refused hp).1 h).1 (by rw [hwf]; exact Bool.noConfusion)

/-- Settles O47: a run on course stands at the guard or before it, where no PACKETIZE and no RETURN is. -/
theorem pipelineFailsClosed : Obligations.PipelineFailsClosed := by
  intro s n g c v a b value max h hc hwf hg hv hb hfails hbefore
  have hk : c.k ≤ g ∧ NoFrame c.env := by
    rcases (h.runs_sound n c hc).onCourse_or_notBegun hwf with hcourse | ⟨henv, hk⟩
    · have hk := hcourse.k_le_of_guard_fails hg hv hb hfails
      exact ⟨hk, noFrame_envAfter (noFrame_inputEnv c.inputs) (fun j d t hj => hbefore j d t (hj.trans_le hk)) hcourse.2⟩
    · exact ⟨by omega, by rw [henv]; exact nofun⟩
  obtain ⟨hk, hnoFrame⟩ := hk
  refine ⟨hk, hnoFrame, fun w tmpl hreq hdecode => ?_, fun val hp => ?_⟩
  · obtain ⟨d, i, hd, -, -, hasks, hword⟩ := h.waiting_of_issuer (issuer_of_request hreq)
    obtain rfl : c = d := Option.some.inj (hc.symm.trans hd)
    obtain rfl : w = encode i := congrArg Outstanding.word (Option.some.inj (hreq.symm.trans hword))
    obtain rfl : i = .packetize tmpl := Except.ok.inj (hasks.decode.symm.trans hdecode)
    obtain ⟨st, hst, hi⟩ := hasks
    obtain ⟨d, t, rfl⟩ := eq_packetize_of_instr? hi
    rcases hk.lt_or_eq with hlt | heq
    · exact hbefore c.k d t hlt hst
    · rw [heq, hg] at hst
      cases hst
  · obtain ⟨-, st, hst, he⟩ := (sound_of_finished hp).1 (h.runs_sound n c hc)
    obtain ⟨x, rfl⟩ := eq_ret_of_ends_ok he
    have hlast := (((sequenceWellFormed_iff _ _).1 hwf).return_last.2 c.k _ hst).1 ⟨x, rfl⟩
    have hlen : g < c.body.length := (List.getElem?_eq_some_iff.1 hg).1
    obtain heq : c.k = g := by omega
    rw [heq, hg] at hst
    cases hst

end Sys2Proof.Machine
end

section
/-! Under the model's default order (log 4) every step brings one run nearer to its end: the steps it still has to take
are three for each statement left, and one for the check (44_sequences.md R77). -/
namespace Sys2Proof.Machine

/-- How many steps a run has still to take at most: a statement is issued, performed and taken in. -/
def Run.stepsLeft (c : Run) : Nat :=
  match c.phase with
  | .starting => 3 * c.body.length + 1
  | .ready => 3 * (c.body.length - c.k)
  | .waiting => 3 * (c.body.length - c.k) - 1
  | .received _ => 3 * (c.body.length - c.k) - 2
  | .finished _ => 0
  | .abandoned => 0
  | .refused => 0

/-- How many steps all the runs have still to take at most. -/
def State.stepsLeft (s : State) : Nat := (s.runs.map Run.stepsLeft).sum

/-- No run has more left than three steps a statement and one. -/
theorem Run.stepsLeft_le (c : Run) : c.stepsLeft ≤ 3 * c.body.length + 1 := by
  cases hp : c.phase <;> simp only [Run.stepsLeft, hp] <;> omega

/-- The runs together have no more left than the sum over them. -/
theorem State.stepsLeft_le (s : State) : s.stepsLeft ≤ (s.runs.map fun c => 3 * c.body.length + 1).sum :=
  List.sum_le_sum fun c _ => c.stepsLeft_le

/-- A state whose outside has chosen nothing and asks nothing. -/
structure State.Quiet (s : State) : Prop where
  inv : s.Inv
  sched : s.sched = []
  noOutside : ∀ w, s.request ≠ some { issuer := .outside, word := w }

/-- Putting back one run with fewer steps left leaves fewer in all. -/
theorem stepsLeft_set_lt {runs : List Run} {n : Nat} {c c' : Run} (hc : runs[n]? = some c)
    (hlt : c'.stepsLeft < c.stepsLeft) :
    ((runs.set n c').map Run.stepsLeft).sum < (runs.map Run.stepsLeft).sum := by
  obtain ⟨hn, rfl⟩ := List.getElem?_eq_some_iff.1 hc
  have hold : runs = runs.take n ++ runs[n] :: runs.drop (n + 1) := by simp
  rw [List.set_eq_take_append_cons_drop, if_pos hn]
  conv_rhs => rw [hold]
  simp only [List.map_append, List.map_cons, List.sum_append, List.sum_cons]
  omega

/-- A statement is left where a run stands at one. -/
theorem Run.Asks.lt {c : Run} {i : Instr} (h : c.Asks i) : c.k < c.body.length := by
  obtain ⟨st, hst, -⟩ := h
  exact (List.getElem?_eq_some_iff.1 hst).1

/-- A run about to start has one step fewer left when its host has checked it. -/
theorem stepsLeft_start_lt {c : Run} (hp : c.phase = .starting) : c.start.stepsLeft < c.stepsLeft := by
  cases hwf : c.wellFormed with
  | true =>
    rw [start_of_wellFormed hwf]
    simp [Run.stepsLeft, hp]
  | false =>
    rw [start_of_not_wellFormed hwf]
    simp [Run.stepsLeft, hp]

/-- A run that waits has one step fewer left when the block has answered. -/
theorem stepsLeft_deliver_lt {c : Run} (hp : c.phase = .waiting) (hk : c.k < c.body.length) (r : RspWord) :
    (c.deliver r).stepsLeft < c.stepsLeft := by
  simp only [Run.stepsLeft, hp, deliver_phase, deliver_body, deliver_k]
  omega

/-- A run with a response has fewer steps left when its host has taken it in. -/
theorem stepsLeft_receive_lt {c : Run} {i : Instr} (hp : c.phase = .received (responseOf i).pack) (hasks : c.Asks i) :
    (c.receive (responseOf i).pack).stepsLeft < c.stepsLeft := by
  have hk := hasks.lt
  obtain ⟨st, hst, hi⟩ := hasks
  rcases receive_responseOf hst hi with ⟨env, -, hrecv⟩ | ⟨res, -, hrecv⟩ <;> rw [hrecv]
  · simp only [Run.stepsLeft, hp]
    omega
  · simp only [Run.stepsLeft, hp, finish_phase]
    omega

/-- The machine stands in `t` after a step that left fewer steps to take, and the outside is still quiet. -/
structure State.Nearer (s t : State) : Prop where
  step : step s = .next t
  quiet : t.Quiet
  fewer : t.stepsLeft < s.stepsLeft
  length : t.runs.length = s.runs.length

section quiet
variable {s : State} (hq : s.Quiet)
include hq

/-- A step that puts back one run with fewer steps left, and asks nothing from outside. -/
theorem State.Quiet.nearer {t : State} {n : Nat} {c c' : Run} (hstep : Machine.step s = .next t)
    (hc : s.runs[n]? = some c) (hruns : t.runs = s.runs.set n c') (hlt : c'.stepsLeft < c.stepsLeft)
    (hs : t.sched = s.sched) (hout : ∀ w, t.request ≠ some { issuer := .outside, word := w }) : s.Nearer t where
  step := hstep
  quiet := ⟨everyStepKeepsTheInvariant s t hq.inv hstep, hs.trans hq.sched, hout⟩
  fewer := by
    rw [State.stepsLeft, hruns]
    exact stepsLeft_set_lt hc hlt
  length := by rw [hruns, List.length_set]

/-- With a request outstanding the block answers it, and the run that waited has its response. -/
theorem State.Quiet.nearer_of_request {o : Outstanding} (hr : s.request = some o) : ∃ t, s.Nearer t := by
  obtain ⟨who, w⟩ := o
  cases who with
  | outside => exact absurd hr (hq.noOutside w)
  | run n =>
    obtain ⟨c, i, hc, hp, -, hasks, hword⟩ := hq.inv.waiting_of_issuer (issuer_of_request hr)
    have hstep := step_of_decode (.inl hq.sched) hword hasks.decode
    have hruns : (s.afterMove.respond (responseOf i).pack).runs = s.runs.set n (c.deliver (responseOf i).pack) := by
      rw [respond_runs, afterMove_issuer, issuer_of_request hr, updateRun, List.modify_eq_set_getElem?, afterMove_runs,
        hc]
      rfl
    refine ⟨_, hq.nearer hstep hc hruns (stepsLeft_deliver_lt hp hasks.lt _) ?_ nofun⟩
    rw [respond_sched, afterMove_sched, hq.sched, List.tail_nil]

/-- With the block free, a host that has a move to make brings its run nearer to its end. -/
theorem State.Quiet.nearer_of_hostMove (hfree : s.request = none) {n : Nat} {c : Run} (hc : s.runs[n]? = some c)
    (hmove : c.phase.canMove = true) (hstep : Machine.step s = .next (s.hostMove n)) : s.Nearer (s.hostMove n) := by
  have hput {c' : Run} (hto : s.hostMove n = s.setRun n c') (hlt : c'.stepsLeft < c.stepsLeft) :
      s.Nearer (s.hostMove n) :=
    hq.nearer hstep hc (by rw [hto, setRun_runs]) hlt (by rw [hto, setRun_sched])
      fun w => by rw [hto, setRun_request, hfree]; exact nofun
  have hsound := hq.inv.runs_sound n c hc
  cases hp : c.phase with
  | starting => exact hput (hostMove_of_starting hc hp) (stepsLeft_start_lt hp)
  | received r =>
    obtain ⟨-, i, hasks, rfl⟩ := (sound_of_received hp).1 hsound
    exact hput (hostMove_of_received hc hp) (stepsLeft_receive_lt hp hasks)
  | ready =>
    rcases ((sound_of_ready hp).1 hsound).next with ⟨x, v, hst, hv⟩ | ⟨st, i, hst, hi⟩
    · have hk : c.k < c.body.length := (List.getElem?_eq_some_iff.1 hst).1
      refine hput (hostMove_of_return hc hp hst hv) ?_
      simp only [Run.stepsLeft, hp, finish_phase]
      omega
    · have hk : c.k < c.body.length := (List.getElem?_eq_some_iff.1 hst).1
      have hto := hostMove_of_operation hc hp hst hi hfree
      refine hq.nearer (c' := { c with phase := .waiting }) hstep hc (by rw [hto]; rfl) ?_ (by rw [hto]; rfl)
        fun w => by rw [hto]; exact nofun
      simp only [Run.stepsLeft, hp]
      omega
  | waiting => rw [hp] at hmove; cases hmove
  | finished res => rw [hp] at hmove; cases hmove
  | abandoned => rw [hp] at hmove; cases hmove
  | refused => rw [hp] at hmove; cases hmove

end quiet

/-- A run that can move is found. -/
theorem firstMovable_of_canMove {runs : List Run} {m : Nat} {d : Run} (hd : runs[m]? = some d)
    (hmove : d.phase.canMove = true) :
    ∃ n c, firstMovable runs = some n ∧ runs[n]? = some c ∧ c.phase.canMove = true := by
  cases hfirst : firstMovable runs with
  | none =>
    have := List.findIdx?_eq_none_iff.1 hfirst d (List.mem_of_getElem? hd)
    rw [hmove] at this
    cases this
  | some n =>
    obtain ⟨hn, hc, -⟩ := List.findIdx?_eq_some_iff_getElem.1 hfirst
    exact ⟨n, runs[n], rfl, List.getElem?_eq_getElem hn, hc⟩

/-- With nothing chosen and the block free, the first host that can move does (log 4). -/
theorem step_of_firstMovable {s : State} {n : Nat} (hs : s.sched = []) (hfree : s.request = none)
    (hfirst : firstMovable s.runs = some n) : step s = .next (s.hostMove n) := by
  simp only [step, State.turn, hs, State.defaultTurn, hfree, hfirst]

/-- A run that is not over waits or can move. -/
theorem Phase.canMove_of_not_isOver {p : Phase} (hover : p.isOver = false) (hwaits : p ≠ .waiting) :
    p.canMove = true := by
  revert hover hwaits
  cases p <;> simp [Phase.isOver, Phase.canMove]

/-- While some run is not over, a step brings the machine nearer to its end. -/
theorem State.Quiet.exists_nearer {s : State} (hq : s.Quiet) {m : Nat} {d : Run} (hd : s.runs[m]? = some d)
    (hover : d.phase.isOver = false) : ∃ t, s.Nearer t := by
  cases hr : s.request with
  | some o => exact hq.nearer_of_request hr
  | none =>
    have hmove := Phase.canMove_of_not_isOver hover (hq.inv.not_waiting hr hd)
    obtain ⟨n, c, hfirst, hc, hcan⟩ := firstMovable_of_canMove hd hmove
    exact ⟨_, hq.nearer_of_hostMove hr hc hcan (step_of_firstMovable hq.sched hr hfirst)⟩

/-- All runs are over within the steps left. -/
theorem State.Quiet.ends {b : Nat} {s : State} (hq : s.Quiet) (hb : s.stepsLeft ≤ b) : ∃ (m : Nat) (t : State), m ≤ b ∧
    Host.Core.run core m s = .next t ∧ (∀ (n : Nat) (c : Run), t.runs[n]? = some c → c.phase.isOver = true) ∧
    t.runs.length = s.runs.length := by
  induction b generalizing s with
  | zero =>
    refine ⟨0, s, le_rfl, rfl, fun n c hc => ?_, rfl⟩
    by_contra hover
    obtain ⟨t, ht⟩ := hq.exists_nearer hc (Bool.eq_false_iff.2 hover)
    exact absurd ht.fewer (by omega)
  | succ b ih =>
    by_cases hall : ∀ (n : Nat) (c : Run), s.runs[n]? = some c → c.phase.isOver = true
    · exact ⟨0, s, Nat.zero_le _, rfl, hall, rfl⟩
    · push Not at hall
      obtain ⟨n, c, hc, hover⟩ := hall
      obtain ⟨t, ht⟩ := hq.exists_nearer hc (Bool.eq_false_iff.2 hover)
      obtain ⟨m, t', hm, hrun, hend, hlen⟩ := ih ht.quiet (by have := ht.fewer; omega)
      exact ⟨m + 1, t', by omega, (run_of_step ht.step).trans hrun, hend, hlen.trans ht.length⟩

/-- Settles O49: the steps left at most are within the bound, and the machine takes no more of them. -/
theorem everyRunEndsUnderTheDefaultOrder : Obligations.EveryRunEndsUnderTheDefaultOrder := by
  intro s h hs hout
  exact State.Quiet.ends ⟨h, hs, hout⟩ s.stepsLeft_le

end Sys2Proof.Machine
end

section
/-! Whatever the other agents do, a run that ends has the result of its own sequence (60_exceptions.md R91). -/
namespace Sys2Proof.Machine

/-- What is left of a run on course comes to what its whole sequence comes to. -/
theorem Run.OnCourse.resultFrom_drop {c : Run} (h : c.OnCourse) :
    resultFrom c.env (c.body.drop c.k) = sequenceResult c.inputs c.body := by
  obtain ⟨hwf, henv⟩ := h
  obtain ⟨_, _, _, _, hresult⟩ :=
    envAfter_checks c.k (compatible_inputEnv c.inputs) (Run.bodyChecks_of_wellFormed hwf) henv
  exact hresult

/-- A body comes to the result its next statement ends with. -/
theorem resultFrom_drop_of_ends {env : Env} {body : List Stmt} {k : Nat} {st : Stmt} {res : Result}
    (hst : body[k]? = some st) (he : st.effect env = .ends res) : resultFrom env (body.drop k) = some res := by
  obtain ⟨hk, rfl⟩ := List.getElem?_eq_some_iff.1 hst
  simp only [List.drop_eq_getElem_cons hk, resultFrom, he]

/-- A sound run with a result has the one its inputs and body determine. -/
theorem Run.Sound.sequenceResult_of_finished {s : State} {n : Nat} {c : Run} {res : Result} (h : c.Sound s n)
    (hp : c.phase = .finished res) : sequenceResult c.inputs c.body = some res := by
  obtain ⟨hcourse, st, hst, he⟩ := (sound_of_finished hp).1 h
  rw [← hcourse.resultFrom_drop, resultFrom_drop_of_ends hst he]

/-- The first of several steps that answer a next state answers one too. -/
theorem step_of_run_succ {k : Nat} {s t : State} (h : Host.Core.run core (k + 1) s = .next t) :
    ∃ s', step s = .next s' ∧ Host.Core.run core k s' = .next t := by
  cases hs : step s with
  | next s' => exact ⟨s', rfl, (run_of_step hs).symm.trans h⟩
  | fault r => cases r
  | refused r =>
    have hcore : core.step s = .refused r := hs
    simp only [Host.Core.run, hcore] at h
    cases h

/-- Any number of steps keep the invariant. -/
theorem State.Inv.run {m : Nat} {s t : State} (h : s.Inv) (hrun : Host.Core.run core m s = .next t) : t.Inv := by
  induction m generalizing s with
  | zero => cases hrun; exact h
  | succ m ih =>
    obtain ⟨s', hstep, hrest⟩ := step_of_run_succ hrun
    exact ih (everyStepKeepsTheInvariant s s' h hstep) hrest

/-- Settles O46: the invariant still holds after the steps, and soundness ties a result to the run's own sequence. -/
theorem interleavingNeverChangesAResult : Obligations.InterleavingNeverChangesAResult :=
  fun _ _ _ h hrun n c _ hc hp => ((h.run hrun).runs_sound n c hc).sequenceResult_of_finished hp

end Sys2Proof.Machine
end

section
/-! The one error: which responses report it, and what they record (60_exceptions.md R83, R84). -/
namespace Sys2Proof.Machine

/-- Only a RANGE whose value exceeds its upper bound responds with status 1 (60_exceptions.md R83). -/
theorem rspStatus_responseOf_iff (i : Instr) : rspStatus (responseOf i).pack = true ↔
    ∃ value min max : Half, i = .range value min max ∧ max.toNat < value.toNat := by
  have transform (d : List Byte) (hi : ∀ value min max, i ≠ .range value min max) :
      rspStatus (okResponse d).pack = true ↔
        ∃ value min max : Half, i = .range value min max ∧ max.toNat < value.toNat := by
    simp [hi]
  cases i with
  | writeValue t v => exact transform (injectValue t v) nofun
  | checksum t => exact transform (checksumOf t) nofun
  | packetize t => exact transform (frameOf t) nofun
  | range v lo hi =>
    rw [responseOf, rspStatus_rangeResponse, decide_eq_true_iff]
    constructor
    · exact fun hlt => ⟨v, lo, hi, rfl, hlt⟩
    · rintro ⟨_, _, _, ⟨⟩, hlt⟩
      exact hlt

/-- Settles O17: the word answered is the packed `responseOf`, which of all instructions fails for such a RANGE only, and
then is made of the bounds. -/
theorem onlyAFailedRangeReportsAnError : Obligations.OnlyAFailedRangeReportsAnError := by
  intro i s t r h hr
  obtain rfl := word_of_exec h hr
  refine ⟨rspStatus_responseOf_iff i, ?_⟩
  rintro v lo hi rfl hlt
  rw [responseOf, rangeResponse_of_lt hlt]
  exact ⟨extractLsb'_pack_raiseInvalidRange lo hi, payload_pack_raiseInvalidRange lo hi⟩

/-- Settles O18: such an instruction answers, and it is no RANGE. -/
theorem theThreeTransformsNeverFail : Obligations.TheThreeTransformsNeverFail := by
  intro i s hw hop
  refine ⟨_, _, exec_of_wellFormed i s hw, respond_response .., Bool.eq_false_iff.2 fun hfails => ?_⟩
  obtain ⟨v, lo, hi, rfl, -⟩ := (rspStatus_responseOf_iff i).1 hfails
  exact hop rfl

end Sys2Proof.Machine
end

section
/-! What can stop the machine: a reserved request from outside, and nothing else (60_exceptions.md R82, log 7). -/
namespace Sys2Proof.Machine

/-- A requester outside that presents a word to a free block begins a transaction (30_encoding.md R50). -/
theorem step_of_request_of_free {s : State} {w : ReqWord} {rest : List Move} (hr : s.request = none)
    (hs : s.sched = .request w :: rest) : step s = .next ((s.withSched rest).issue .outside w) := by
  rw [step_of_sched hs]
  simp only [State.scheduledTurn, State.presentTurn, State.withSched, hr]

/-- With nothing chosen, the block free and no host that can move, the machine is idle (log 4). -/
theorem step_of_firstMovable_none {s : State} (hs : s.sched = []) (hr : s.request = none)
    (hfirst : firstMovable s.runs = none) : step s = .next s := by
  simp only [step, State.turn, hs, State.defaultTurn, hr, hfirst]

/-- Every step goes on, unless it is the block's. -/
theorem step_next_or_serve (s : State) : (∃ t, step s = .next t) ∨ ∃ sc, step s = (s.withSched sc).serve := by
  cases hs : s.sched with
  | nil =>
    cases hr : s.request with
    | some o => exact .inr ⟨_, step_of_blockMovesNext (.inl hs) hr⟩
    | none =>
      cases hfirst : firstMovable s.runs with
      | some n => exact .inl ⟨_, step_of_firstMovable hs hr hfirst⟩
      | none => exact .inl ⟨s, step_of_firstMovable_none hs hr hfirst⟩
  | cons m rest =>
    cases m with
    | block => exact .inr ⟨_, step_of_block hs⟩
    | request w =>
      cases hr : s.request with
      | some o => exact .inr ⟨_, step_of_request_of_busy hr hs⟩
      | none => exact .inl ⟨_, step_of_request_of_free hr hs⟩
    | run n => exact .inl ⟨_, step_of_sched hs⟩
    | load inputs body => exact .inl ⟨_, step_of_sched hs⟩
    | restart n => exact .inl ⟨_, step_of_sched hs⟩
    | reset => exact .inl ⟨_, step_of_sched hs⟩

/-- Under the invariant a request that does not decode comes from outside: a run's own request spells its operation. -/
theorem State.Inv.issuer_of_decode_error {s : State} {o : Outstanding} {e : DecodeError} (h : s.Inv)
    (hr : s.request = some o) (hd : decode o.word = .error e) : o.issuer = .outside := by
  cases hwho : o.issuer with
  | outside => rfl
  | run n =>
    obtain ⟨c, i, -, -, -, hasks, hword⟩ := h.waiting_of_issuer ((issuer_of_request hr).trans hwho)
    obtain rfl : o = { issuer := .run n, word := encode i } := Option.some.inj (hr.symm.trans hword)
    cases hasks.decode.symm.trans hd

/-- Under the invariant the block goes on, or refuses a request from outside that does not decode. -/
theorem State.Inv.serve_next_or_refused {s : State} (h : s.Inv) : (∃ t, s.serve = .next t) ∨
    ∃ o e, s.request = some o ∧ o.issuer = .outside ∧ decode o.word = .error e ∧ s.serve = .refused (refusalOf e) := by
  cases hr : s.request with
  | none => exact .inl ⟨s, serve_of_none hr⟩
  | some o =>
    cases hd : decode o.word with
    | ok i => exact .inl ⟨_, (serve_of_decode hr hd).trans (exec_of_wellFormed i s (wellFormed_of_decode hd))⟩
    | error e => exact .inr ⟨o, e, rfl, h.issuer_of_decode_error hr hd, hd, serve_of_error hr hd⟩

/-- Settles O48: of all agents the block alone can stop the machine, and no request of a run makes it. -/
theorem onlyOutsideRequestsAreRefused : Obligations.OnlyOutsideRequestsAreRefused := by
  intro s h
  rcases step_next_or_serve s with hnext | ⟨sc, hserve⟩
  · exact .inl hnext
  · rw [hserve]
    exact (h.withSched sc).serve_next_or_refused

end Sys2Proof.Machine
end

section
/-! Reset (70_reset_and_hazards.md): the state after it, what it abandons, and the requests that come after it. -/
namespace Sys2Proof.Machine

/-- Settles O30: with nothing chosen, no request and no run, no agent can move. -/
theorem resetLeavesTheBlockIdle : Obligations.ResetLeavesTheBlockIdle :=
  ⟨rfl, rfl, rfl, step_of_firstMovable_none rfl rfl rfl⟩

/-- Settles O44: no sequence is loaded and no request is outstanding, so both clauses of the invariant are empty. -/
theorem resetStateMeetsTheInvariant : Obligations.ResetStateMeetsTheInvariant := by
  obtain ⟨hrequest, -, hruns, -⟩ := resetLeavesTheBlockIdle
  constructor
  case runs_sound =>
    intro n c hc
    rw [hruns] at hc
    cases hc
  case issuer_waits =>
    intro n w hr
    rw [hrequest] at hr
    cases hr

/-- A reset on the schedule takes the block, with that move used up. -/
theorem step_of_reset {s : State} {rest : List Move} (hs : s.sched = .reset :: rest) :
    step s = .next (s.withSched rest).takeReset := step_of_sched hs

/-- Reset abandons the run of the issuer where it stands (44_sequences.md R77 case 3). -/
theorem takeReset_runs_issuer {s : State} {n : Nat} {c : Run} (hn : s.issuer = .run n) (hc : s.runs[n]? = some c) :
    s.takeReset.runs[n]? = some c.abandon := by
  rw [takeReset_runs, hn, getElem?_updateRun_self, hc, Option.map_some]

/-- Reset leaves every run but the issuer's alone (log 11). -/
theorem takeReset_runs_of_ne {s : State} {n : Nat} (hn : s.issuer ≠ .run n) : s.takeReset.runs[n]? = s.runs[n]? := by
  rw [takeReset_runs, getElem?_updateRun_of_ne _ _ _ _ hn]

/-- Reset leaves as many runs as there were. -/
theorem length_takeReset_runs (s : State) : s.takeReset.runs.length = s.runs.length := by
  rw [takeReset_runs, length_updateRun]

/-- Settles O31: the step is `State.takeReset`, which abandons the run of the issuer and leaves every other one. -/
theorem resetAbandonsOnlyTheOutstandingRequest : Obligations.ResetAbandonsOnlyTheOutstandingRequest := by
  intro s rest hs
  refine ⟨_, step_of_reset hs, takeReset_request .., takeReset_response .., takeReset_sched .., length_takeReset_runs _,
    fun n c hc hn => ?_, fun n hn => takeReset_runs_of_ne hn⟩
  exact ⟨c.abandon, takeReset_runs_issuer hn hc, abandon_phase .., abandon_inputs .., abandon_body .., abandon_env ..,
    abandon_k ..⟩

/-- A request that decodes, presented from outside to a free block that moves next, is answered in two steps with the
response of its operation, and the block is free again. -/
theorem run_two_of_request_of_free {s : State} {w : ReqWord} {i : Instr} {rest : List Move} (hr : s.request = none)
    (hd : decode w = .ok i) (hs : s.sched = .request w :: .block :: rest) :
    ∃ t : State, Host.Core.run core 2 s = .next t ∧ t.request = none ∧
      t.response = some { issuer := .outside, word := (responseOf i).pack } ∧ t.sched = rest := by
  have hasked := issue_request (s.withSched (.block :: rest)) .outside w
  have hanswered := step_of_decode (.inr ⟨rest, rfl⟩) hasked hd
  exact ⟨_, (run_of_step (step_of_request_of_free hr hs)).trans (run_of_step hanswered), respond_request ..,
    respond_afterMove_response hasked _, rfl⟩

/-- Settles O32: reset frees the block, which is free again after each answer, so the request is answered both times as any
request presented to a free block. -/
theorem requestsAfterResetAreAnsweredAlike : Obligations.RequestsAfterResetAreAnsweredAlike := by
  intro s w i rest hd hs
  obtain ⟨s', hreset, hfree, -, hsched, -⟩ := resetAbandonsOnlyTheOutstandingRequest s _ hs
  obtain ⟨t, hrun, hfree', hresp, hsched'⟩ := run_two_of_request_of_free hfree hd hsched
  obtain ⟨t', hrun', -, hresp', hsched''⟩ := run_two_of_request_of_free hfree' hd hsched'
  exact ⟨t, t', (run_of_step hreset).trans hrun, hresp, hrun', hresp'.trans hresp.symm, hsched''⟩

end Sys2Proof.Machine
end
